-- ==== Sys2Proof/Word.lean ====
section
/-! DEFINITION. The units of data the block moves (20_memory.md R40, R45): stream bits, octets, and finite sequences
of them. Nothing else of the block is a machine word: input elements are integers, counts and decoded elements are
naturals (00_scope.md R11), and arithmetic on them is exact (R10). -/

namespace Sys2Proof

/-- One payload byte or one token character (R40(b), R40(c)): an octet, 0 to 255 (R11). How many stream bits a payload byte
takes is R5's `BYTE_BITS`, in Config.lean. -/
abbrev Byte := BitVec 8

/-- The BitStream `BS`, or the unpacked stream `bits` (R40(a)): one Bool a bit, `true` for 1, index 0 first. -/
abbrev BitStream := List Bool

end Sys2Proof
end

