-- ==== Sys2Proof/Config.lean ====
section
/-! DEFINITION. What an instance fixes: the named constants of 00_scope.md R5, one line each; the configuration
structure of 10_state.md R27 (plain data, a field of State); and the one uninterpreted parameter, LENIENT_B64. -/

namespace Sys2Proof.Config

/-- R5 `VALUE_MIN`. -/
abbrev valueMin : Int := 1
/-- R5 `VALUE_MAX`. -/
abbrev valueMax : Int := 300
/-- R5 `FLAG_BITS`. -/
abbrev flagBits : Nat := 1
/-- R5 `VALUE_BITS`. -/
abbrev valueBits : Nat := 9
/-- R5 `COUNT_BITS`. -/
abbrev countBits : Nat := 10
/-- R5 `GROUPED_COST` = `VALUE_BITS + COUNT_BITS`: also the width of one pair. -/
abbrev groupedCost : Nat := valueBits + countBits
/-- R5 `RAW_COST` = `VALUE_BITS`. -/
abbrev rawCost : Nat := valueBits
/-- R5 `BYTE_BITS`. -/
abbrev byteBits : Nat := 8
/-- R5 `FLAG_GROUPED`. -/
abbrev flagGrouped : Nat := 1
/-- R5 `FLAG_RAW`. -/
abbrev flagRaw : Nat := 0

/-- R6 `COUNT_OVERFLOW_POLICY` (92_eei_decisions.md D6). -/
inductive CountOverflowPolicy
  | reject | wrap
  deriving DecidableEq, Repr

/-- R6 `DECODE_POLICY` (92_eei_decisions.md D7, D8). -/
inductive DecodePolicy
  | strict | reference
  deriving DecidableEq, Repr

/-- R27's configuration structure, less `lenientB64`: a function is no plain data, so it stands below as an
uninterpreted constant. `none` is `Unbounded`. The defaults are those of R6. -/
structure Cfg where
  countOverflowPolicy : CountOverflowPolicy := .reject
  decodePolicy : DecodePolicy := .strict
  maxInputLen : Option Nat := none
  maxTokenLen : Option Nat := none
  deriving DecidableEq, Repr

/-- R131, D10 `LENIENT_B64`: what a token that is not canonical decodes to under `Reference`. FREE VALUE (log entry 2):
no body, so nothing can be proved of its values; a claim must assume a named property of it. -/
opaque lenientB64 : List Byte → List Byte

end Sys2Proof.Config
end

