-- ==== Sys2Proof/Machine/Bits.lean ====
section
/-! DEFINITION. Fields in a bit stream, most significant bit first (20_memory.md R42, 30_encoding.md R68). -/

namespace Sys2Proof.Machine

/-- The `w` stream bits of a field holding `v`, most significant first (R42): stream bit `t` is bit `w - 1 - t` of `v`.
Bits of `v` at and above `w` are no part of them; `emit` is what refuses such a `v` (R101). -/
def natBits : Nat → Nat → BitStream
  | 0, _ => []
  | w + 1, v => v.testBit w :: natBits w v

/-- The unsigned number whose bits, most significant first, these are (R68; the loop `v <- 2 * v + b` of R141). -/
def fieldValue (bits : BitStream) : Nat :=
  bits.foldl (fun v b => 2 * v + b.toNat) 0

/-- R141 `ReadField(bits, pos, w)`: a position at or past the end of `bits` reads as 0. -/
def readField (bits : BitStream) (pos w : Nat) : Nat :=
  fieldValue ((List.range w).map fun t => bits.getD (pos + t) false)

end Sys2Proof.Machine
end

