-- ==== Sys2Proof/Machine/Flags.lean ====
section
/-! DEFINITION. The block's only flag, `MODE` (10_state.md R26), and the Mode Selector that computes it
(40_count_and_select.md R90). -/

namespace Sys2Proof.Machine

/-- R13, R26: the two modes. -/
inductive Mode
  | raw | grouped
  deriving DecidableEq, Repr

/-- R5, R26: the mode flag's value. -/
def Mode.flag : Mode → Nat
  | .raw => Config.flagRaw
  | .grouped => Config.flagGrouped

/-- R62, R142: the mode that a flag field's value selects. -/
def Mode.ofFlag (v : Nat) : Mode := if v = Config.flagGrouped then .grouped else .raw

/-- R142, R62: the mode of a stream, read from its flag field; a missing flag reads as 0 (R141, D20). -/
def streamMode (bits : BitStream) : Mode := Mode.ofFlag (readField bits 0 Config.flagBits)

/-- R90 MODE_SELECT(D, N): exact products, and a tie selects raw (R91). -/
def modeSelect (d n : Nat) : Mode :=
  if d * Config.groupedCost < n * Config.rawCost then .grouped else .raw

end Sys2Proof.Machine
end

