-- ==== Sys2Proof/Machine/Pack.lean ====
section
/-! DEFINITION. The Bit Packer and the Bit Unpacker (41_field_encode_pack.md R110, 43_unpack_field_decode.md R140): the
one mapping of stream bits to payload bytes, 20_memory.md R41. -/

namespace Sys2Proof.Machine

/-- R65, R110: how many zero bits follow a stream of `len` bits. -/
def padLength (len : Nat) : Nat :=
  (Config.byteBits - len % Config.byteBits) % Config.byteBits

/-- R110's `P`, of a stream `S` that is whole bytes: byte `j` is made of the stream bits from `8j` on, the first one its
bit 7 (R41). -/
def packBytes (s : BitStream) : List Byte :=
  (List.range (s.length / Config.byteBits)).map fun j =>
    BitVec.ofNat _ (fieldValue ((s.drop (Config.byteBits * j)).take Config.byteBits))

/-- R110 BIT_PACK: zero padding at the end only, then bytes. -/
def bitPack (bs : BitStream) : List Byte :=
  packBytes (bs ++ List.replicate (padLength bs.length) false)

/-- R140 BIT_UNPACK: `BYTE_BITS` stream bits a byte, bit 7 first. -/
def bitUnpack (payload : List Byte) : BitStream :=
  payload.flatMap fun b => natBits Config.byteBits b.toNat

end Sys2Proof.Machine
end

