-- ==== Sys2Proof/Syntax.lean ====
section
/-! DEFINITION. The four rows of spec/opcode_table.json as one inductive, `Instr`, and the two levels their codes stand
at (30_encoding.md R60, R62, R73): commands, and payload frames. -/

namespace Sys2Proof

/-- R60 `OPERAND`: a whole transaction-level value, a sequence of integers (`IN`) or of octets (`T`). -/
inductive Operand
  | ints (values : List Int)
  | octets (token : List Byte)
  deriving DecidableEq, Repr

/-- R60: a command as the host hands it over, `OP` and `OPERAND`. `OP` alone fixes which kind of operand belongs to it;
the decoder checks that. -/
structure Command where
  op : BitVec 1
  operand : Operand
  deriving DecidableEq, Repr

/-- R63, R64 `value_k`: a 9-bit unsigned field. -/
abbrev ValueField := BitVec Config.valueBits
/-- R63 `count_k`: a 10-bit unsigned field. -/
abbrev CountField := BitVec Config.countBits

/-- One constructor per row of spec/opcode_table.json. A frame carries its whole fields and its `tail`: the stream bits
after its last whole pair or value. In a frame the encoder made the tail is the `pad` field of R63 and R64; in any
other payload it is the trailing remainder that R70, R144 and R145 speak of. -/
inductive Instr
  /-- ENCODE, OP = 0 (R160). -/
  | encode (values : List Int)
  /-- DECODE, OP = 1 (R161). -/
  | decode (token : List Byte)
  /-- GROUPED_FRAME, mode flag 1 (R63, R143 grouped branch). -/
  | groupedFrame (pairs : List (ValueField × CountField)) (tail : BitStream)
  /-- RAW_FRAME, mode flag 0 (R64, R143 raw branch). -/
  | rawFrame (values : List ValueField) (tail : BitStream)
  deriving DecidableEq, Repr

/-- What an instruction is encoded as: a command (R60) or the payload bytes of a frame (R62). -/
inductive Code
  | command (c : Command)
  | payload (bytes : List Byte)
  deriving DecidableEq, Repr

end Sys2Proof
end

