-- ==== Sys2Proof/WellFormed.lean ====
section
/-! DEFINITION. When an instruction has a code. Every command has one (30_encoding.md R71: no reserved or illegal
opcode). A frame has one when its tail is too short to hold another whole field and the whole is a number of bytes. -/

namespace Sys2Proof

/-- R63, R66: the stream bits of a grouped frame, its tail included. -/
def groupedBits (pairs : List (ValueField × CountField)) (tail : BitStream) : Nat :=
  Config.flagBits + Config.groupedCost * pairs.length + tail.length

/-- R64, R66: the stream bits of a raw frame, its tail included. -/
def rawBits (values : List ValueField) (tail : BitStream) : Nat :=
  Config.flagBits + Config.rawCost * values.length + tail.length

/-- The checks on an instruction (R69: the decoder reads pairs while at least 19 bits remain, values while at least 9
remain; a payload is whole bytes, R40(b)). -/
def Instr.wf : Instr → Bool
  | .encode _ => true
  | .decode _ => true
  | .groupedFrame pairs tail =>
    decide (tail.length < Config.groupedCost) && groupedBits pairs tail % Config.byteBits == 0
  | .rawFrame values tail =>
    decide (tail.length < Config.rawCost) && rawBits values tail % Config.byteBits == 0

/-- R60: the operand is of the kind its OP takes. -/
def Command.wf (c : Command) : Bool :=
  match c.operand with
  | .ints _ => c.op == 0
  | .octets _ => c.op == 1

end Sys2Proof
end

