-- ==== Sys2Proof/Decode.lean ====
section
/-! DEFINITION. The decoder and the encoder (30_encoding.md). There are two levels of code (R73): a command is OP and
OPERAND (R60); a payload is bytes whose first bit, the mode flag, plays the part of an opcode (R62). Decoding is total on
both; what it refuses it refuses by name. -/

namespace Sys2Proof

open Machine

/-- Why a code is no instruction. -/
inductive DecodeError
  /-- The operand is not of the kind its OP takes (R60): no command at all. -/
  | operandKind (op : BitVec 1)
  /-- A payload of 0 bytes has no mode flag (R70 last row; R142 and R144 say what DECODE does then). -/
  | emptyPayload
  deriving DecidableEq, Repr

/-- R60, R73, the command level: OP = 0 is ENCODE, OP = 1 is DECODE. Both values are defined (R71). -/
def decodeCommand (c : Command) : Except DecodeError Instr :=
  match c.op == 0, c.operand with
  | true, .ints values => .ok (.encode values)
  | false, .octets token => .ok (.decode token)
  | _, _ => .error (.operandKind c.op)

/-- R63: a pair is a 9-bit value then a 10-bit count, each most significant bit first. -/
def pairOfBits (bits : BitStream) : ValueField × CountField :=
  (BitVec.ofNat _ (fieldValue (bits.take Config.valueBits)),
    BitVec.ofNat _ (fieldValue ((bits.drop Config.valueBits).take Config.countBits)))

/-- R63, R69: whole pairs while at least 19 bits remain, and the bits left. `fuel` bounds the number of pairs. -/
def splitPairs : Nat → BitStream → List (ValueField × CountField) × BitStream
  | 0, bits => ([], bits)
  | fuel + 1, bits =>
    if Config.groupedCost ≤ bits.length then
      let rest := splitPairs fuel (bits.drop Config.groupedCost)
      (pairOfBits bits :: rest.1, rest.2)
    else ([], bits)

/-- R64, R69: whole values while at least 9 bits remain, and the bits left. `fuel` bounds the number of values. -/
def splitValues : Nat → BitStream → List ValueField × BitStream
  | 0, bits => ([], bits)
  | fuel + 1, bits =>
    if Config.rawCost ≤ bits.length then
      let rest := splitValues fuel (bits.drop Config.rawCost)
      (BitVec.ofNat _ (fieldValue (bits.take Config.valueBits)) :: rest.1, rest.2)
    else ([], bits)

/-- R62: the mode flag, stream bit 0, selects the frame; a stream of no bits has none. -/
def decodeStream (bits : BitStream) : Except DecodeError Instr :=
  if bits.isEmpty then .error .emptyPayload
  else
    let fields := bits.drop Config.flagBits
    match streamMode bits with
    | .grouped =>
      let r := splitPairs fields.length fields
      .ok (.groupedFrame r.1 r.2)
    | .raw =>
      let r := splitValues fields.length fields
      .ok (.rawFrame r.1 r.2)

/-- R62, R73, the payload level: byte 0 `& 0x80` is the mode flag (R41: it is stream bit 0). -/
def decodePayload (bytes : List Byte) : Except DecodeError Instr :=
  decodeStream (bitUnpack bytes)

/-- The decoder of both levels. -/
def decode : Code → Except DecodeError Instr
  | .command c => decodeCommand c
  | .payload bytes => decodePayload bytes

/-- R63, R64: a frame's stream bits, from its layout table; a command has none. -/
def frameBits : Instr → BitStream
  | .groupedFrame pairs tail =>
    natBits Config.flagBits Config.flagGrouped
      ++ pairs.flatMap (fun p => natBits Config.valueBits p.1.toNat ++ natBits Config.countBits p.2.toNat) ++ tail
  | .rawFrame values tail =>
    natBits Config.flagBits Config.flagRaw ++ values.flatMap (fun v => natBits Config.valueBits v.toNat) ++ tail
  | .encode _ => []
  | .decode _ => []

/-- The encoder (R60 for commands, R63 and R64 for frames, R41 for their bytes). -/
def encode : Instr → Code
  | .encode values => .command ⟨0, .ints values⟩
  | .decode token => .command ⟨1, .octets token⟩
  | .groupedFrame pairs tail => .payload (packBytes (frameBits (.groupedFrame pairs tail)))
  | .rawFrame values tail => .payload (packBytes (frameBits (.rawFrame values tail)))

/-- The `n` bytes of a number, the first the least significant (the numbering of spec/opcode_table.json, which gives the
first byte bits 7..0, the next bits 15..8). -/
def bytesOfNat : Nat → Nat → List Byte
  | 0, _ => []
  | n + 1, w => BitVec.ofNat 8 w :: bytesOfNat n (w / 256)

/-- The code a table row's word stands for. A row of one bit is a command's OP (R60), with an operand of nothing, the
operand bits above it being 0; a wider row is a payload. The table gives OP one bit and a payload row a byte, and the
caller counts in whole bytes, so a word of one byte is read as OP where bits 7..1 are 0, as a payload otherwise (log
entry 6: the byte 00 is both the code of ENCODE and the shortest RAW_FRAME, and 01 both DECODE and a RAW_FRAME; a word
alone does not say its level). -/
def codeOfTableWord (nbits w : Nat) : Code :=
  if nbits ≤ 8 ∧ w = 0 then .command ⟨0, .ints []⟩
  else if nbits ≤ 8 ∧ w = 1 then .command ⟨1, .octets []⟩
  else .payload (bytesOfNat ((nbits + 7) / 8) w)

/-- The instruction the decoder reads from a word of spec/opcode_table.json. -/
def decodeTableWord (nbits w : Nat) : Option Instr :=
  (decode (codeOfTableWord nbits w)).toOption

end Sys2Proof
end

