-- ==== Sys2Proof/Machine/Base64.lean ====
section
/-! DEFINITION. The Byte and Text Transcoder (42_base64.md; the spec marks its alphabet and arithmetic as general
knowledge, 93_implementation_defined.md part 2): alphabet, B64_ENCODE, canonical tokens and their bytes. What
B64_DECODE does with a token that is not canonical depends on the decode policy and stands in Machine/Fields.lean. -/

namespace Sys2Proof.Machine

/-- R120: the pad character `=`. -/
def padChar : Byte := 0x3D

/-- R120 `enc64`: the ASCII code of an index of the alphabet. -/
def enc64 (i : Nat) : Byte :=
  if i < 26 then BitVec.ofNat 8 (0x41 + i)
  else if i < 52 then BitVec.ofNat 8 (0x61 + (i - 26))
  else if i < 62 then BitVec.ofNat 8 (0x30 + (i - 52))
  else if i = 62 then 0x2B
  else 0x2F

/-- R120 `dec64`: the index of an octet, none where it is not one of the 64 codes. -/
def dec64 (o : Byte) : Option Nat :=
  let c := o.toNat
  if 0x41 ≤ c ∧ c ≤ 0x5A then some (c - 0x41)
  else if 0x61 ≤ c ∧ c ≤ 0x7A then some (c - 0x61 + 26)
  else if 0x30 ≤ c ∧ c ≤ 0x39 then some (c - 0x30 + 52)
  else if c = 0x2B then some 62
  else if c = 0x2F then some 63
  else none

/-- The octet is a character of the alphabet (R120). -/
def inAlphabet (o : Byte) : Bool := (dec64 o).isSome

/-- The index of an octet, 0 for one outside the alphabet: only called where R129 has checked the octet, or where R129
itself puts 0 for a pad character. -/
def sextet (o : Byte) : Nat := (dec64 o).getD 0

/-- R121's `n`: the 24 bits of a quantum. -/
def quantumOfBytes (b0 b1 b2 : Byte) : Nat :=
  b0.toNat * 2 ^ 16 + b1.toNat * 2 ^ 8 + b2.toNat

/-- `enc64` of the `k`-th sextet of a quantum, `k = 3` being `n[23:18]` and `k = 0` being `n[5:0]` (R121). -/
def sextetChar (n k : Nat) : Byte := enc64 (n / 2 ^ (6 * k) % 64)

/-- R121 B64_ENCODE. -/
def b64Encode : List Byte → List Byte
  | [] => []
  | [b0] =>
    let n := quantumOfBytes b0 0 0
    [sextetChar n 3, sextetChar n 2, padChar, padChar]
  | [b0, b1] =>
    let n := quantumOfBytes b0 b1 0
    [sextetChar n 3, sextetChar n 2, sextetChar n 1, padChar]
  | b0 :: b1 :: b2 :: rest =>
    let n := quantumOfBytes b0 b1 b2
    sextetChar n 3 :: sextetChar n 2 :: sextetChar n 1 :: sextetChar n 0 :: b64Encode rest

/-- R129(c): how many pad characters the last quantum has, by its last two octets; none where (c) allows none of the
three forms. -/
def padCount (c2 c3 : Byte) : Option Nat :=
  if inAlphabet c2 && inAlphabet c3 then some 0
  else if inAlphabet c2 && c3 == padChar then some 1
  else if c2 == padChar && c3 == padChar then some 2
  else none

/-- R129(c), (d): the last quantum of a canonical token. -/
def lastQuantumOk (c0 c1 c2 c3 : Byte) : Bool :=
  inAlphabet c0 && inAlphabet c1 &&
    match padCount c2 c3 with
    | some 0 => true
    | some 1 => sextet c2 % 4 == 0
    | some 2 => sextet c1 % 16 == 0
    | _ => false

/-- R129 `Canonical(T)`. The four patterns are its (a): a token that is not a number of quanta falls to the last. -/
def canonical : List Byte → Bool
  | [] => true
  | [c0, c1, c2, c3] => lastQuantumOk c0 c1 c2 c3
  | c0 :: c1 :: c2 :: c3 :: rest =>
    inAlphabet c0 && inAlphabet c1 && inAlphabet c2 && inAlphabet c3 && canonical rest
  | _ => false

/-- The 24 bits of a quantum of characters, a pad character counting as 0 (R129's `n`). -/
def quantumOfChars (c0 c1 c2 c3 : Byte) : Nat :=
  sextet c0 * 2 ^ 18 + sextet c1 * 2 ^ 12 + sextet c2 * 2 ^ 6 + sextet c3

/-- The `k`-th byte of a quantum, `k = 2` being `n[23:16]` and `k = 0` being `n[7:0]` (R129). -/
def quantumByte (n k : Nat) : Byte := BitVec.ofNat 8 (n / 2 ^ (8 * k) % 256)

/-- R129: the bytes of one quantum with `npad` pad characters. -/
def quantumBytes (npad : Nat) (c0 c1 c2 c3 : Byte) : List Byte :=
  let n := quantumOfChars c0 c1 c2 c3
  [quantumByte n 2] ++ (if npad < 2 then [quantumByte n 1] else []) ++ (if npad < 1 then [quantumByte n 0] else [])

/-- R129 `StrictBytes(T)`; the spec gives it for a canonical token only, and only there is it called. -/
def strictBytes : List Byte → List Byte
  | [] => []
  | [c0, c1, c2, c3] => quantumBytes ((padCount c2 c3).getD 0) c0 c1 c2 c3
  | c0 :: c1 :: c2 :: c3 :: rest => quantumBytes 0 c0 c1 c2 c3 ++ strictBytes rest
  | _ => []

end Sys2Proof.Machine
end

