-- ==== Sys2Proof/Machine/State.lean ====
section
/-! DEFINITION. The state of one block instance and of its command port, as plain data (10_state.md), the reasons a step
can stop, and the state after reset (10_state.md R30, 70_reset_and_hazards.md R200). The block has no memory (R40), no
registers but `RES` (R20, R29) and no program counter (R21). The working state of R24 exists only inside the one step
that runs a command (R23, R28, R47): Machine/Commands.lean names it (log entry 5). -/

namespace Sys2Proof.Machine

/-- The faults of the MODEL that the spec asks for. Both are safe: no rule of the spec lets a run reach one, and the
machine stops rather than go on. -/
inductive Fault
  /-- Raised by `emit`, called with a value that does not fit its field (R101; 93_implementation_defined.md row 11: "fault of
  the model, never silent truncation"). Safe. -/
  | emitOverflow (value : Int) (width : Nat)
  /-- Raised by the host's read of `RES` when `RES.status` holds the reserved code 6 or 7 (R181; 93 row 7). Safe. -/
  | reservedStatus (code : BitVec 3)
  deriving DecidableEq, Repr

/-- What the model refuses. -/
inductive Refusal
  /-- Raised by an arm of `exec` that has no meaning; no arm of this model is one. Safe. -/
  | notModelled (mnemonic : String)
  /-- Raised when the host issues a command while another is in progress: R203(c), R207 and 93 row 8 ("refuse: the host has
  no such move"). Safe. -/
  | commandWhileBusy
  /-- Raised when the operand handed over with OP is not of the kind R60 gives that OP: not a command at all. Safe. -/
  | operandKind (op : BitVec 1)
  deriving DecidableEq, Repr

/-- R22 `RES.info`, R181: the detail each error defines, none on success. -/
inductive Info
  | none
  /-- DomainRangeError: the first offending element (R182). -/
  | value (v : Int)
  /-- CountOverflowError: the first entry whose count does not fit (R183). -/
  | valueCount (v : Int) (count : Nat)
  /-- TruncatedStreamError: `8 * len(P)`, and where the remainder starts (R185). -/
  | stream (payloadBits cursor : Nat)
  /-- CapacityError: the parameter exceeded (R187). -/
  | limit (n : Nat)
  deriving DecidableEq, Repr

/-- R22 `RES.out`: a token (after ENCODE) or a sequence of naturals (after DECODE). -/
inductive Output
  | octets (token : List Byte)
  | naturals (values : List Nat)
  deriving DecidableEq, Repr

/-- R22, R61: the result holding register `RES`. -/
structure Res where
  /-- 1 once a command has completed since reset. -/
  valid : Bool
  /-- The OP code of the command that produced it. -/
  op : BitVec 1
  /-- The 3-bit status code of R181. -/
  status : BitVec 3
  info : Info
  out : Output
  deriving DecidableEq, Repr

/-- What the host does at the block's port in one step: R207's table, one constructor a row, less its last row (a change
of configuration, which is no move: R27), and `wait`, for no interaction. -/
inductive HostMove
  /-- Hand over a command (R203(a), R203(b)). -/
  | issue (c : Command)
  /-- Read `RES` (R22: "The host may read `RES` at any time"). -/
  | readRes
  /-- Assert reset (R200, R201). -/
  | reset
  /-- Do nothing, so that the block works on. -/
  | wait
  deriving DecidableEq, Repr

/-- One block instance (R195; log entry 12) and its port. -/
structure State where
  /-- The configuration of R27; no step changes it. -/
  cfg : Config.Cfg
  /-- The result register `RES` (R22). -/
  res : Res
  /-- The command accepted and not ended yet, its whole operand captured (R47, R53, R203(b)); none when the block is
  idle. -/
  inProgress : Option Command
  /-- THE MODEL'S OWN (log entry 3): what the host does next, first move first; when it is empty the host only waits. -/
  host : List HostMove
  /-- THE MODEL'S OWN (log entry 3): what the host got back from its last read of `RES`; none before the first read, or where
  `RES.valid` was 0, when it must ignore the fields (R207). -/
  lastRead : Option Res
  deriving DecidableEq, Repr

/-- `RES` after reset. R30 gives `valid = 0` and leaves the other fields unspecified; the zeros here are a DESIGN CHOICE
(log entry 1), which no rule and no statement rests on. -/
def Res.reset : Res := { valid := false, op := 0, status := 0, info := .none, out := .octets [] }

/-- An instance just after reset, built with the configuration `cfg` (R200: "whatever the instance was built with"), whose
host has not done anything yet. -/
def State.resetWith (cfg : Config.Cfg) : State :=
  { cfg := cfg, res := Res.reset, inProgress := none, host := [], lastRead := none }

/-- The machine right after reset: R6's default configuration (log entry 4), R30, R200. -/
def State.reset : State := State.resetWith {}

end Sys2Proof.Machine
end

