-- ==== Sys2Proof/Machine/Ops.lean ====
section
/-! DEFINITION. The named operations on the state: how a command ends, in success (44_commands.md R160, R161) or by raising
an error (60_exceptions.md R186, the block's whole "exception entry"; R189: there is no return from one, for the next
command simply starts from idle), and what the host does at the port. -/

namespace Sys2Proof.Machine

/-- R181: the names of the status codes. -/
inductive Status
  | ok | domainRange | countOverflow | format | truncatedStream | capacity
  deriving DecidableEq, Repr

/-- R181: the 3-bit code. -/
def Status.code : Status → BitVec 3
  | .ok => 0
  | .domainRange => 1
  | .countOverflow => 2
  | .format => 3
  | .truncatedStream => 4
  | .capacity => 5

/-- R181: the name of a code; none for the reserved codes 6 and 7. -/
def Status.ofCode (c : BitVec 3) : Option Status :=
  [Status.ok, .domainRange, .countOverflow, .format, .truncatedStream, .capacity].find? (·.code == c)

/-- The five errors a command can raise, with the detail each defines (R182 to R187). -/
inductive Err
  | domainRange (value : Int)
  | countOverflow (value : Int) (count : Nat)
  | format
  | truncatedStream (payloadBits cursor : Nat)
  | capacity (limit : Nat)
  deriving DecidableEq, Repr

/-- R181, the column of codes. -/
def Err.status : Err → Status
  | .domainRange _ => .domainRange
  | .countOverflow _ _ => .countOverflow
  | .format => .format
  | .truncatedStream _ _ => .truncatedStream
  | .capacity _ => .capacity

/-- R181, the column `RES.info`. -/
def Err.info : Err → Info
  | .domainRange v => .value v
  | .countOverflow v c => .valueCount v c
  | .format => .none
  | .truncatedStream bits cursor => .stream bits cursor
  | .capacity n => .limit n

/-- Why a unit ends the command it runs in: `raise E(info)` (R10), or a fault of the model (R101). -/
inductive Abort
  | raised (e : Err)
  | modelFault (f : Fault)
  deriving DecidableEq, Repr

/-- What a unit answers. -/
abbrev UnitResult := Except Abort

/-- `raise E(info)` in a unit: nothing after it in the command runs (R186(a)). -/
def raise {α : Type} (e : Err) : UnitResult α := .error (.raised e)

/-- R186(c), R61: `out = []`, of the kind the command's OP gives (R22; log entry 13). -/
def emptyOutput (op : BitVec 1) : Output :=
  if op == 0 then .octets [] else .naturals []

/-- R160, R161, last line: `RES` on success. -/
def Res.success (op : BitVec 1) (out : Output) : Res :=
  { valid := true, op := op, status := Status.ok.code, info := .none, out := out }

/-- R186(c): `RES` on an error. -/
def Res.failure (op : BitVec 1) (e : Err) : Res :=
  { valid := true, op := op, status := e.status.code, info := e.info, out := emptyOutput op }

/-- A command ends: it writes all fields of `RES` at once, and the block is idle again (R47, R203(b), R206). -/
def State.endWith (s : State) (r : Res) : State := { s with res := r, inProgress := none }

/-- Error entry, the analogue of trap entry (R186): `RES` written once, nothing else saved, the block idle again. -/
def State.raiseError (s : State) (op : BitVec 1) (e : Err) : State := s.endWith (.failure op e)

/-- A command that answers `out` ends. -/
def State.succeed (s : State) (op : BitVec 1) (out : Output) : State := s.endWith (.success op out)

/-- How the units' answer ends the command `op`. -/
def State.endCommand (s : State) (op : BitVec 1) : UnitResult Output → Host.Outcome State Fault Refusal
  | .ok out => .next (s.succeed op out)
  | .error (.raised e) => .next (s.raiseError op e)
  | .error (.modelFault f) => .fault f

/-- R203(b), R53: an idle block takes the command with its whole operand; R203(c): a busy one does not. -/
def State.accept (s : State) (c : Command) : Host.Outcome State Fault Refusal :=
  match s.inProgress with
  | none => .next { s with inProgress := some c }
  | some _ => .refused .commandWhileBusy

/-- R200, R201: reset at any time. A command in progress is abandoned and writes no `RES`; the configuration stays. What the
host has read, and what it will do next, are not the block's to clear (log entry 11). -/
def State.assertReset (s : State) : State := { s with res := Res.reset, inProgress := none }

/-- R22, R207: the host reads `RES`; where `valid` is 0 it gets back nothing but that. The read changes nothing in the
block (R46). A reserved status code is a fault of the model (R181). -/
def State.readRes (s : State) : Host.Outcome State Fault Refusal :=
  if s.res.valid then
    match Status.ofCode s.res.status with
    | some _ => .next { s with lastRead := some s.res }
    | none => .fault (.reservedStatus s.res.status)
  else .next { s with lastRead := none }

end Sys2Proof.Machine
end

