-- ==== Sys2Proof/Machine/Count.lean ====
section
/-! DEFINITION. The Frequency Counter (40_count_and_select.md R80, R81; its table, 10_state.md R25). -/

namespace Sys2Proof.Machine

/-- R25: one entry of the FrequencyTable. -/
structure Entry where
  value : Int
  count : Nat
  deriving DecidableEq, Repr

/-- R25: the FrequencyTable, its entries in first-occurrence order. -/
abbrev FreqTable := List Entry

/-- R81: exactly the integers `VALUE_MIN` to `VALUE_MAX` pass. -/
def legalValue (x : Int) : Bool := decide (Config.valueMin ≤ x) && decide (x ≤ Config.valueMax)

/-- R80, the loop's last four lines: one more `x`; a new value goes at the end. -/
def countValue (x : Int) : FreqTable → FreqTable
  | [] => [⟨x, 1⟩]
  | e :: rest => if e.value = x then { e with count := e.count + 1 } :: rest else e :: countValue x rest

/-- R80's loop, from a table built so far. -/
def freqCountFrom (ft : FreqTable) : List Int → UnitResult FreqTable
  | [] => .ok ft
  | x :: rest => if legalValue x then freqCountFrom (countValue x ft) rest else raise (.domainRange x)

/-- R80 FREQ_COUNT. -/
def freqCount (input : List Int) : UnitResult FreqTable := freqCountFrom [] input

end Sys2Proof.Machine
end

