-- ==== Sys2Proof/Machine/Operands.lean ====
section
/-! DEFINITION. A command's operand against the configured capacity (60_exceptions.md R187), and `Emit`, which writes one
field to the BitStream (41_field_encode_pack.md R101). The operand forms themselves are R60's two kinds, in Syntax.lean. -/

namespace Sys2Proof.Machine

/-- R187, R160, R161: checked before any unit runs; an operand as long as the limit fits. -/
def checkCapacity (limit : Option Nat) (len : Nat) : UnitResult Unit :=
  match limit with
  | some m => if len > m then raise (.capacity m) else .ok ()
  | none => .ok ()

/-- R101 `Emit(BS, v, w)`. A call outside its precondition `0 <= v < 2^w` is a fault of the model. -/
def emit (bs : BitStream) (v : Int) (w : Nat) : UnitResult BitStream :=
  if 0 ≤ v ∧ v < 2 ^ w then .ok (bs ++ natBits w v.toNat)
  else .error (.modelFault (.emitOverflow v w))

end Sys2Proof.Machine
end

