-- ==== Sys2Proof/Machine/Fields.lean ====
section
/-! DEFINITION. The Field Encoder (41_field_encode_pack.md R100), and the decode path after the token: B64_DECODE with its
policy (42_base64.md R128), FIELD_DECODE with TRAILING (43_unpack_field_decode.md R143 to R145), TRIM_ZEROS (R146). -/

namespace Sys2Proof.Machine

/-- R102(b), R100: under `Reject` the first entry, in table order, whose count does not fit its field raises. -/
def checkCounts (policy : Config.CountOverflowPolicy) (ft : FreqTable) : UnitResult Unit :=
  match policy with
  | .wrap => .ok ()
  | .reject =>
    match ft.find? fun e => decide (e.count ≥ 2 ^ Config.countBits) with
    | some e => raise (.countOverflow e.value e.count)
    | none => .ok ()

/-- R100, grouped: value then count of every entry; the count modulo 2^10, which matters under `Wrap` only (R102). -/
def emitPairs (bs : BitStream) : FreqTable → UnitResult BitStream
  | [] => .ok bs
  | e :: rest => do
    let bs ← emit bs e.value Config.valueBits
    let bs ← emit bs ((e.count % 2 ^ Config.countBits : Nat) : Int) Config.countBits
    emitPairs bs rest

/-- R100, raw: every element, in original order, no counts. -/
def emitValues (bs : BitStream) : List Int → UnitResult BitStream
  | [] => .ok bs
  | x :: rest => do
    let bs ← emit bs x Config.valueBits
    emitValues bs rest

/-- R100 FIELD_ENCODE. -/
def fieldEncode (cfg : Config.Cfg) (input : List Int) (ft : FreqTable) (mode : Mode) : UnitResult BitStream := do
  let bs ← emit [] (mode.flag : Int) Config.flagBits
  match mode with
  | .grouped => do
    checkCounts cfg.countOverflowPolicy ft
    emitPairs bs ft
  | .raw => emitValues bs input

/-- R128 B64_DECODE. -/
def b64Decode (cfg : Config.Cfg) (token : List Byte) : UnitResult (List Byte) :=
  if canonical token then .ok (strictBytes token)
  else
    match cfg.decodePolicy with
    | .strict => raise .format
    | .reference => .ok (Config.lenientB64 token)

/-- R143, grouped loop: `pos` and `OUT` after the whole pairs. `fuel` bounds the number of turns; the length of `bits` is
enough, for `pos` grows at every turn (R206: every loop is bounded by the length of its input; log
entry 15). -/
def readPairs (bits : BitStream) : Nat → Nat → List Nat → Nat × List Nat
  | 0, pos, out => (pos, out)
  | fuel + 1, pos, out =>
    if pos + Config.groupedCost ≤ bits.length then
      readPairs bits fuel (pos + Config.groupedCost)
        (out ++ List.replicate (readField bits (pos + Config.valueBits) Config.countBits)
          (readField bits pos Config.valueBits))
    else (pos, out)

/-- R143, raw loop: `pos` and `OUT` after the whole values; `fuel` as above. -/
def readValues (bits : BitStream) : Nat → Nat → List Nat → Nat × List Nat
  | 0, pos, out => (pos, out)
  | fuel + 1, pos, out =>
    if pos + Config.valueBits ≤ bits.length then
      readValues bits fuel (pos + Config.valueBits) (out ++ [readField bits pos Config.valueBits])
    else (pos, out)

/-- R144 TRAILING under `Strict`: the remainder of a stream of `len` bits, from `pos` on, must be 0 to 7 zero bits. -/
def trailingStrict (len pos : Nat) (remainder : BitStream) : UnitResult Unit :=
  if Config.byteBits ≤ remainder.length ∨ remainder.any id then raise (.truncatedStream len pos) else .ok ()

/-- R145 TRAILING under `Reference`: what the remainder adds to `OUT`. Grouped: discarded; raw: one zero-filled value, where
any bit remains. -/
def trailingReference (mode : Mode) (remainder : BitStream) : List Nat :=
  match mode with
  | .grouped => []
  | .raw => if remainder.isEmpty then [] else [readField remainder 0 Config.valueBits]

/-- R143 `TRAILING`: by policy, `OUT` with what the remainder adds. -/
def trailing (cfg : Config.Cfg) (len pos : Nat) (remainder : BitStream) (mode : Mode) (out : List Nat) :
    UnitResult (List Nat) :=
  match cfg.decodePolicy with
  | .strict => do
    trailingStrict len pos remainder
    return out
  | .reference => return out ++ trailingReference mode remainder

/-- `pos` after TRAILING: R145, raw, moves it past the remainder, where any bit remains; nothing else in R144 or R145 moves
it. -/
def trailingPos (cfg : Config.Cfg) (len pos : Nat) (remainder : BitStream) (mode : Mode) : Nat :=
  match cfg.decodePolicy, mode with
  | .reference, .raw => if remainder.isEmpty then pos else len
  | .reference, .grouped => pos
  | .strict, _ => pos

/-- What FIELD_DECODE writes (R143's operands): `MODE`, `pos` and `OUT`. -/
structure Fields where
  mode : Mode
  pos : Nat
  out : List Nat
  deriving DecidableEq, Repr

/-- R143 FIELD_DECODE; R142 and R144 for the stream of no bits, where `Reference` reads the missing flag as 0 and `pos` stays
where it starts (R21). -/
def fieldDecode (cfg : Config.Cfg) (bits : BitStream) : UnitResult Fields :=
  match bits with
  | [] =>
    match cfg.decodePolicy with
    | .strict => raise (.truncatedStream 0 0)
    | .reference => .ok { mode := streamMode bits, pos := 0, out := [] }
  | _ :: _ => do
    let mode := streamMode bits
    let r := match mode with
      | .grouped => readPairs bits bits.length Config.flagBits []
      | .raw => readValues bits bits.length Config.flagBits []
    let out ← trailing cfg bits.length r.1 (bits.drop r.1) mode r.2
    return { mode := mode, pos := trailingPos cfg bits.length r.1 (bits.drop r.1) mode, out := out }

/-- R146 TRIM_ZEROS: drop trailing zeros only. -/
def trimZeros (out : List Nat) : List Nat := (out.reverse.dropWhile (· == 0)).reverse

end Sys2Proof.Machine
end

