-- ==== Sys2Proof/Machine/Commands.lean ====
section
/-! DEFINITION. The meanings of the two boundary commands (44_commands.md R160, R161). Each runs its units in the source's
order; the working state of 10_state.md R24 is named here, made when the command starts and gone when it ends (R23). -/

namespace Sys2Proof.Machine

/-- R24: the working values of an ENCODE. -/
structure EncodeWork where
  input : List Int
  ft : FreqTable
  d : Nat
  n : Nat
  mode : Mode
  bs : BitStream
  p : List Byte
  t : List Byte
  deriving DecidableEq, Repr

/-- R160's pseudocode, all but its last line. -/
def encodeWork (cfg : Config.Cfg) (input : List Int) : UnitResult EncodeWork := do
  checkCapacity cfg.maxInputLen input.length
  let ft ← freqCount input
  let mode := modeSelect ft.length input.length
  let bs ← fieldEncode cfg input ft mode
  let p := bitPack bs
  return { input := input, ft := ft, d := ft.length, n := input.length, mode := mode, bs := bs, p := p, t := b64Encode p }

/-- ENCODE (R160): the token, or the first error by R188(a), goes to `RES`. -/
def execEncode (input : List Int) (s : State) : Host.Outcome State Fault Refusal :=
  s.endCommand 0 ((encodeWork s.cfg input).map fun w => .octets w.t)

/-- R24: the working values of a DECODE; `out` after the trim. -/
structure DecodeWork where
  t : List Byte
  p : List Byte
  bits : BitStream
  mode : Mode
  pos : Nat
  out : List Nat
  deriving DecidableEq, Repr

/-- R161's pseudocode, all but its last line. -/
def decodeWork (cfg : Config.Cfg) (token : List Byte) : UnitResult DecodeWork := do
  checkCapacity cfg.maxTokenLen token.length
  let p ← b64Decode cfg token
  let bits := bitUnpack p
  let f ← fieldDecode cfg bits
  return { t := token, p := p, bits := bits, mode := f.mode, pos := f.pos, out := trimZeros f.out }

/-- DECODE (R161): the sequence, or the first error by R188(b), goes to `RES`. -/
def execDecode (token : List Byte) (s : State) : Host.Outcome State Fault Refusal :=
  s.endCommand 1 ((decodeWork s.cfg token).map fun w => .naturals w.out)

end Sys2Proof.Machine
end

