-- ==== Sys2Proof/Machine/Frames.lean ====
section
/-! DEFINITION. The meanings of the two payload frames (30_encoding.md R62 to R64; 43_unpack_field_decode.md R143, one branch
each): what the field decoder does with a payload that is this frame, up to the end of the DECODE it is run by. A frame is
run only inside a DECODE, whose token carries it (00_scope.md R16; log entry 6). A frame that is not well formed
is one no payload decodes to (log entry 14). -/

namespace Sys2Proof.Machine

/-- R145: the bits of a raw frame's remainder are read where a value field would start, so a frame's tail reads as the
stream does at `pos`. Here: TRAILING on a tail, then TRIM_ZEROS (R161's order). -/
def finishFrame (cfg : Config.Cfg) (len : Nat) (tail : BitStream) (mode : Mode) (out : List Nat) : UnitResult Output :=
  (trailing cfg len (len - tail.length) tail mode out).map fun r => .naturals (trimZeros r)

/-- GROUPED_FRAME (R143 grouped branch): each value as often as its count says, in pair order. -/
def execGroupedFrame (pairs : List (ValueField × CountField)) (tail : BitStream) (s : State) :
    Host.Outcome State Fault Refusal :=
  s.endCommand 1
    (finishFrame s.cfg (groupedBits pairs tail) tail .grouped
      (pairs.flatMap fun p => List.replicate p.2.toNat p.1.toNat))

/-- RAW_FRAME (R143 raw branch): the values in order. -/
def execRawFrame (values : List ValueField) (tail : BitStream) (s : State) : Host.Outcome State Fault Refusal :=
  s.endCommand 1 (finishFrame s.cfg (rawBits values tail) tail .raw (values.map fun v => v.toNat))

end Sys2Proof.Machine
end

