-- ==== Sys2Proof/Machine/Dispatch.lean ====
section
/-! DEFINITION. The dispatch: one arm per constructor of Instr, each one direct call of its meaning. -/

namespace Sys2Proof.Machine

def exec (i : Instr) (s : State) : Host.Outcome State Fault Refusal :=
  match i with
  | .encode values => Sys2Proof.Machine.execEncode values s
  | .decode token => Sys2Proof.Machine.execDecode token s
  | .groupedFrame pairs tail => Sys2Proof.Machine.execGroupedFrame pairs tail s
  | .rawFrame values tail => Sys2Proof.Machine.execRawFrame values tail s

end Sys2Proof.Machine
end

