-- ==== Sys2Proof/Machine/Handshake.lean ====
section
/-! DEFINITION. The command handshake (70_reset_and_hazards.md R203, R207): what one move of the host does, how the command
in progress runs, and the command that runs a given instruction. -/

namespace Sys2Proof.Machine

/-- R203(b), R28: the command in progress runs to completion in one step; an idle block stays as it is (R197). -/
def State.work (s : State) : Host.Outcome State Fault Refusal :=
  match s.inProgress with
  | none => .next s
  | some c =>
    match decodeCommand c with
    | .ok i => exec i s
    | .error _ => .refused (.operandKind c.op)

/-- One move of the host (R207). While the host waits, the block works. -/
def State.hostMove (s : State) : HostMove → Host.Outcome State Fault Refusal
  | .issue c => s.accept c
  | .readRes => s.readRes
  | .reset => .next s.assertReset
  | .wait => s.work

/-- The payload bytes of a code; a command has none. -/
def payloadOf : Code → List Byte
  | .payload bytes => bytes
  | .command _ => []

/-- The command that runs an instruction: a command is its own; a frame is run by the DECODE of the token that carries it
(R16, R73: a frame cannot be reached from outside the block in any other way; log entry 6). -/
def commandFor (i : Instr) : Command :=
  match i with
  | .encode values => ⟨0, .ints values⟩
  | .decode token => ⟨1, .octets token⟩
  | .groupedFrame pairs tail => ⟨1, .octets (b64Encode (payloadOf (encode (.groupedFrame pairs tail))))⟩
  | .rawFrame values tail => ⟨1, .octets (b64Encode (payloadOf (encode (.rawFrame values tail))))⟩

/-- The instance with the instruction of a table word accepted and the host waiting; unchanged where the word is none. -/
def State.loadTableWord (s : State) (nbits w : Nat) : State :=
  match decodeTableWord nbits w with
  | some i => { s with inProgress := some (commandFor i), host := [] }
  | none => s

end Sys2Proof.Machine
end

