-- ==== Sys2Proof/Machine/Step.lean ====
section
/-! DEFINITION. One step of the machine: the host's next move, and where it only waits, the command in progress run to its
end. The three outcomes are those of Host/Core.lean. -/

namespace Sys2Proof.Machine

/-- One step. With no move left the host waits (R205: a command takes an unbounded but finite time, and completing it is one
step). -/
def step (s : State) : Host.Outcome State Fault Refusal :=
  match s.host with
  | [] => s.work
  | m :: rest => State.hostMove { s with host := rest } m

/-- `s` with the instruction of a word of spec/opcode_table.json as the command in progress, so that the next step runs
it (log entry 7). -/
def State.withFetchWord (s : State) (nbits w : Nat) : State := s.loadTableWord nbits w

end Sys2Proof.Machine
end

