-- ==== Sys2Proof/Safety.lean ====
section
/-! DEFINITION. What counts as a good state: the invariant the statements use, read off the tables of 60_exceptions.md R181
(which command raises which status with which info), 44_commands.md R162 and 30_encoding.md R67 (what a result looks like),
and 30_encoding.md R60 (what a command looks like); and the words the statements use for operands and payloads, each read off
a rule and not off a unit's code. -/

namespace Sys2Proof.Machine

/-- A non-empty canonical token: the form R67 and R123 give every token ENCODE produces. -/
def tokenForm (t : List Byte) : Bool := !t.isEmpty && canonical t

/-- R181's table row by row: status, info, the command that raises it, and `out` empty on an error (R186). -/
def Res.consistent (r : Res) : Bool :=
  match Status.ofCode r.status, r.info, r.out with
  | some .ok, .none, .octets t => r.op == 0 && tokenForm t
  | some .ok, .none, .naturals ns => r.op == 1 && ns.all (fun n => decide (n < 2 ^ Config.valueBits))
  | some .domainRange, .value v, .octets [] => r.op == 0 && !legalValue v
  | some .countOverflow, .valueCount v c, .octets [] => r.op == 0 && legalValue v && decide (2 ^ Config.countBits ≤ c)
  | some .format, .none, .naturals [] => r.op == 1
  | some .truncatedStream, .stream bits cursor, .naturals [] => 
    r.op == 1 && bits % Config.byteBits == 0 && decide (cursor ≤ bits)
  | some .capacity, .limit _, .octets [] => r.op == 0
  | some .capacity, .limit _, .naturals [] => r.op == 1
  | _, _, _ => false

/-- R22, R30: a valid `RES` is consistent; while `valid = 0` its other fields are unspecified. -/
def Res.wf (r : Res) : Bool := !r.valid || r.consistent

/-- A move the host may make: a command whose operand is of the kind its OP takes (R60). -/
def HostMove.wf : HostMove → Bool
  | .issue c => c.wf
  | .readRes => true
  | .reset => true
  | .wait => true

/-- The invariant: `RES` well formed, what the host read valid and well formed, every command of the kind R60 gives. -/
def State.wf (s : State) : Bool :=
  s.res.wf && s.lastRead.all (fun r => r.valid && r.wf) && s.inProgress.all Command.wf && s.host.all HostMove.wf

/-- R203(c), R207: the one move a host must not make, a command issued while another is in progress. -/
def State.hostBreaksHandshake (s : State) : Bool :=
  s.inProgress.isSome && match s.host with
    | .issue _ :: _ => true
    | _ => false

/-- R187: an operand of length `n` is within the configured capacity. -/
def Fits (limit : Option Nat) (n : Nat) : Prop := ∀ m, limit = some m → n ≤ m

/-- R11, R81: every element is in [`VALUE_MIN`, `VALUE_MAX`]. -/
def AllLegal (input : List Int) : Prop := ∀ x ∈ input, Config.valueMin ≤ x ∧ x ≤ Config.valueMax

/-- R15 `D`: the number of distinct values, listed in first-occurrence order. -/
def distinctCount (input : List Int) : Nat := input.eraseDups.length

/-- R144, R185: valid padding is fewer than `BYTE_BITS` bits, all 0. -/
def ValidPadding (tail : BitStream) : Prop := tail.length < Config.byteBits ∧ ∀ b ∈ tail, b = false

/-- R65: the `pad` field that follows `len` stream bits. -/
def zeroPad (len : Nat) : BitStream := 
  List.replicate ((Config.byteBits - len % Config.byteBits) % Config.byteBits) false

/-- R90, R63, R64: the frame the spec lays out for an input: grouped where `D * GROUPED_COST < N * RAW_COST`, else raw. A
count field takes the count modulo its range (R102). -/
def frameFor (input : List Int) : Instr :=
  if distinctCount input * Config.groupedCost < input.length * Config.rawCost then
    .groupedFrame (input.eraseDups.map fun v => (BitVec.ofInt _ v, BitVec.ofNat _ (input.count v)))
      (zeroPad (Config.flagBits + Config.groupedCost * distinctCount input))
  else .rawFrame (input.map fun v => BitVec.ofInt _ v) (zeroPad (Config.flagBits + Config.rawCost * input.length))

/-- The token that carries a frame. -/
def tokenOf (i : Instr) : List Byte := b64Encode (payloadOf (encode i))

/-- R163: what a token made from an input decodes to: the input itself in raw mode; in grouped mode each distinct value,
in first-occurrence order, as often as its count modulo the count field's range says. -/
def decodedOf (input : List Int) : List Nat :=
  if distinctCount input * Config.groupedCost < input.length * Config.rawCost then
    input.eraseDups.flatMap fun v => List.replicate (input.count v % 2 ^ Config.countBits) v.toNat
  else input.map Int.toNat

end Sys2Proof.Machine
end

