-- ==== Sys2Proof/Certificates/Slice0/Obligations.lean ====
section
/-! DEFINITION. The statements for the provers. Each docstring names the rules of spec/ its statement comes from. -/

open Sys2Proof Sys2Proof.Machine

/-! ### Reset, the port, and one step -/

/-- R200: just after reset, whatever the configuration the instance was built with, `RES.valid` is 0, no command is in
progress, and the interface takes a command at once; and a reset of any state does the same and leaves the configuration. Nothing
is said of the other fields of `RES`, which R200 leaves unspecified (log entry 1). -/
def Obligations.ResetLeavesResInvalidAndIdle : Prop :=
  ∀ cfg : Config.Cfg,
    (State.resetWith cfg).cfg = cfg ∧ (State.resetWith cfg).res.valid = false ∧
    (State.resetWith cfg).inProgress = none ∧
    (∀ c, (State.resetWith cfg).accept c = .next { State.resetWith cfg with inProgress := some c }) ∧
    ∀ s : State, s.assertReset.cfg = s.cfg ∧ s.assertReset.res.valid = false ∧ s.assertReset.inProgress = none

/-- R201: reset asserted at any time, a command in progress or not, abandons the command: `RES` is not its result, `RES.valid` is
0, and nothing is in progress. How the host's moves reach a step is the model's own (log entry 3). -/
def Obligations.ResetAbandonsTheCommandInProgress : Prop :=
  ∀ (s : State) (rest : List HostMove), s.host = .reset :: rest →
    ∃ t, step s = .next t ∧ t.res.valid = false ∧ t.inProgress = none

/-- R203(a), (b), R53: an idle block captures the whole command and changes nothing else. That capturing is a step of its own
is the model's choice (log entry 8), and so is the list of the host's moves (log entry 3). -/
def Obligations.IdleBlockCapturesTheCommand : Prop :=
  ∀ (s : State) (c : Command) (rest : List HostMove), s.host = .issue c :: rest → s.inProgress = none →
    step s = .next { s with host := rest, inProgress := some c }

/-- R203(c): a command issued while another is in progress is not accepted; the model gives the host no such move and
refuses (93_implementation_defined.md row 8; log entry 9). -/
def Obligations.BusyBlockAcceptsNoCommand : Prop :=
  ∀ (s : State) (c d : Command) (rest : List HostMove), s.host = .issue c :: rest → s.inProgress = some d →
    step s = .refused .commandWhileBusy

/-- R22, R46, R207: a read of a valid `RES` with a status the block writes gives the host all of it and changes nothing in
the block; a read while `valid = 0` gives it nothing, which is how the model holds the host to ignoring the fields (log
entry 10). -/
def Obligations.HostReadsResWithoutEffect : Prop :=
  ∀ (s : State) (rest : List HostMove), s.host = .readRes :: rest →
    (s.res.valid = true → s.res.status.toNat ≤ 5 →
      step s = .next { s with host := rest, lastRead := some s.res }) ∧
    (s.res.valid = false → step s = .next { s with host := rest, lastRead := none })

/-- R181: codes 6 and 7 are never written, and a model that reads one has a fault of the model. -/
def Obligations.ReservedStatusCodeFaults : Prop :=
  ∀ (s : State) (rest : List HostMove), s.host = .readRes :: rest → s.res.valid = true → 6 ≤ s.res.status.toNat →
    step s = .fault (.reservedStatus s.res.status)

/-- R197: an idle block whose host waits keeps its configuration and `RES`, and everything else. -/
def Obligations.IdlenessChangesNothing : Prop :=
  ∀ s : State, s.inProgress = none →
    (s.host = [] → step s = .next s) ∧
    (∀ rest, s.host = .wait :: rest → step s = .next { s with host := rest })

/-- R203(b), R28: where the host waits, a step runs the instruction that the command in progress decodes to, and is exec of
it; the step itself only takes the host's move (log entry 3). -/
def Obligations.StepRunsTheDecodedInstruction : Prop :=
  ∀ (s : State) (c : Command) (i : Instr), s.inProgress = some c → decodeCommand c = .ok i →
    (s.host = [] → step s = exec i s) ∧
    (∀ rest, s.host = .wait :: rest → step s = exec i { s with host := rest })

/-- R203: issued to an idle block, a command is captured by one step and, with the host waiting, run to its end by the next;
then the block is idle again, and `RES` is valid and carries the command's OP. The two steps are the model's choice (log
entry 8). -/
def Obligations.IssuedCommandRunsToCompletion : Prop :=
  ∀ (s : State) (c : Command) (rest : List HostMove), s.host = .issue c :: .wait :: rest → s.inProgress = none →
    c.wf = true →
    ∃ s₁ t, step s = .next s₁ ∧ s₁.res = s.res ∧ s₁.inProgress = some c ∧ step s₁ = .next t ∧
      t.inProgress = none ∧ t.res.valid = true ∧ t.res.op = c.op ∧ t.cfg = s.cfg ∧ t.host = rest ∧
      t.lastRead = s.lastRead

/-- R27: no step changes the configuration. -/
def Obligations.NoStepChangesTheConfiguration : Prop :=
  ∀ s t : State, step s = .next t → t.cfg = s.cfg

/-! ### Encoding -/

/-- R60, R71: a command whose operand is of the kind its OP takes decodes, and no other does. -/
def Obligations.EveryWellFormedCommandDecodes : Prop :=
  ∀ c : Command, c.wf = true ↔ ∃ i, decodeCommand c = .ok i

/-- The words of S1, S4, S5, S2 of 95_test_vectors.md, written out from R63 and R64, decode to the frames they stand for. -/
def Obligations.WrittenOutPayloadsDecode : Prop :=
  decodePayload [0x80, 0x40, 0x40] = .ok (.groupedFrame [(1, 4)] [false, false, false, false]) ∧
  decodePayload [0xA5, 0x86, 0x40] = .ok (.groupedFrame [(150, 100)] [false, false, false, false]) ∧
  decodePayload [0x00, 0xC0, 0x20, 0x40, 0x08, 0x14] = .ok (.rawFrame [3, 1, 4, 1, 5] [false, false]) ∧
  decodePayload [0x00] = .ok (.rawFrame [] [false, false, false, false, false, false, false])

/-- R60, R63, R64, R69: decoding the code of a well-formed instruction gives it back, every field at every value. -/
def Obligations.DecodeOfEncodeIsTheInstruction : Prop :=
  ∀ i : Instr, i.wf = true → decode (encode i) = .ok i

/-- R62, R69, R70: every payload of at least one byte is exactly one frame, a well-formed one, whose code it is: no bit of
it is dropped. -/
def Obligations.EveryNonEmptyPayloadIsOneFrame : Prop :=
  ∀ p : List Byte, p ≠ [] → ∃ i, decodePayload p = .ok i ∧ i.wf = true ∧ encode i = .payload p

/-- R140 "inverse law", R41: unpacking what BIT_PACK packed gives the stream and its zero padding; packing what BIT_UNPACK
unpacked gives the payload. -/
def Obligations.PackAndUnpackAreInverse : Prop :=
  (∀ bs : BitStream, bitUnpack (bitPack bs) = bs ++ zeroPad bs.length) ∧
  ∀ p : List Byte, bitPack (bitUnpack p) = p

/-- R41: stream bit `i` is bit `7 - (i mod 8)` of byte `i div 8`, unpacking and packing alike. -/
def Obligations.StreamBitIsItsByteBit : Prop :=
  (∀ (p : List Byte) (i : Nat), i < 8 * p.length →
    (bitUnpack p)[i]? = (p[i / 8]?).map fun b => b.toNat.testBit (7 - i % 8)) ∧
  ∀ (bs : BitStream) (i : Nat), i < bs.length →
    bs[i]? = ((bitPack bs)[i / 8]?).map fun b => b.toNat.testBit (7 - i % 8)

/-- R122: the token of a payload of `B` bytes has `4 * ceil(B / 3)` characters. -/
def Obligations.TokenLengthIsFourPerThreeBytes : Prop :=
  ∀ p : List Byte, (b64Encode p).length = 4 * ((p.length + 2) / 3)

/-- R123: every token B64_ENCODE makes is canonical, and the strict decoder gives back exactly the payload. -/
def Obligations.EncodedTokenIsCanonicalAndDecodesBack : Prop :=
  ∀ p : List Byte, canonical (b64Encode p) = true ∧ strictBytes (b64Encode p) = p

/-- 92_eei_decisions.md D9: one spelling per payload, so that decoding is injective on the tokens it accepts. -/
def Obligations.CanonicalTokenIsTheOnlySpelling : Prop :=
  ∀ t : List Byte, canonical t = true → b64Encode (strictBytes t) = t

/-- R120: `enc64` is the alphabet's table, `dec64` its inverse, and no other octet, the pad character least of all, has an
index. -/
def Obligations.AlphabetIsTheStandardOne : Prop :=
  (∀ i < 64, dec64 (enc64 i) = some i) ∧
  (∀ (o : Byte) (i : Nat), dec64 o = some i → i < 64 ∧ enc64 i = o) ∧
  (List.range 64).map enc64 =
    "ABCDEFGHIJKLMNOPQRSTUVWXYZabcdefghijklmnopqrstuvwxyz0123456789+/".toList.map (fun c => BitVec.ofNat 8 c.toNat) ∧
  dec64 0x3D = none

/-! ### Frequency Counter and Mode Selector -/

/-- R81: exactly the integers 1 to 300 pass, and the value reported is the one at the smallest index that fails. -/
def Obligations.FreqCountReportsTheFirstIllegalElement : Prop :=
  (∀ input, AllLegal input → ∃ ft, freqCount input = .ok ft) ∧
  ∀ (before after : List Int) (x : Int), AllLegal before → ¬ (1 ≤ x ∧ x ≤ 300) →
    freqCount (before ++ x :: after) = .error (.raised (.domainRange x))

/-- R82: entry `k` holds the `k`-th distinct value met, whatever the values and counts. -/
def Obligations.FreqTableIsInFirstOccurrenceOrder : Prop :=
  ∀ input ft, freqCount input = .ok ft → ft.map Entry.value = input.eraseDups

/-- R83 (a) to (g). -/
def Obligations.FreqTableProperties : Prop :=
  ∀ input ft, freqCount input = .ok ft →
    (∀ e ∈ ft, 1 ≤ e.value ∧ e.value ≤ 300) ∧
    (ft.map Entry.value).Nodup ∧
    (∀ e ∈ ft, 1 ≤ e.count) ∧
    (ft.map Entry.count).sum = input.length ∧
    (∀ e ∈ ft, e.count = input.count e.value) ∧
    ft.length ≤ min input.length 300 ∧
    (ft.length = 0 ↔ input.length = 0)

/-- R90, R91: grouped exactly where `D * 19 < N * 9`; the empty input and every tie select raw; a tie needs `N` a multiple of
19 and `D = 9N/19`. -/
def Obligations.TieAndEmptyInputSelectRaw : Prop :=
  (∀ d n, modeSelect d n = .grouped ↔ d * 19 < n * 9) ∧
  modeSelect 0 0 = .raw ∧
  (∀ d n, 19 * d = 9 * n → modeSelect d n = .raw ∧ n % 19 = 0 ∧ d = 9 * n / 19) ∧
  modeSelect 9 19 = .raw

/-- R92: the mode chosen gives a stream, and a payload, no longer than the other mode's; grouped is chosen exactly when its
stream is strictly shorter. -/
def Obligations.ChosenModeIsNeverLonger : Prop :=
  ∀ cfg input w, encodeWork cfg input = .ok w →
    (w.mode = .grouped ↔ 1 + 19 * w.d < 1 + 9 * w.n) ∧
    w.bs.length ≤ 1 + 19 * w.d ∧ w.bs.length ≤ 1 + 9 * w.n ∧
    w.p.length ≤ (1 + 19 * w.d + 7) / 8 ∧ w.p.length ≤ (1 + 9 * w.n + 7) / 8

/-- R93 (a) with its list of smallest `N`, (b), (c). -/
def Obligations.ModeThresholds : Prop :=
  (∀ d n, modeSelect d n = .grouped ↔ 19 * d / 9 + 1 ≤ n) ∧
  [1, 2, 3, 4, 5, 9, 10, 19, 100, 300].map (fun d => 19 * d / 9 + 1) = [3, 5, 7, 9, 11, 20, 22, 41, 212, 634] ∧
  ∀ input ft, freqCount input = .ok ft →
    ft.length ≤ 300 ∧
    (modeSelect ft.length input.length = .raw → input.length ≤ 633 ∧ ∀ e ∈ ft, e.count ≤ input.length) ∧
    (634 ≤ input.length → modeSelect ft.length input.length = .grouped) ∧
    (∀ e ∈ ft, 1024 ≤ e.count → modeSelect ft.length input.length = .grouped)

/-! ### Field Encoder and Bit Packer -/

/-- R101: `Emit` appends the `w` bits of a value that fits, bit `w - 1 - t` at place `t`, and faults on any other; FIELD_ENCODE,
called as ENCODE calls it, never breaks the precondition. -/
def Obligations.EmitAppendsOrFaults : Prop :=
  (∀ (bs : BitStream) (v : Int) (w : Nat),
    ((0 ≤ v ∧ v < 2 ^ w) →
      emit bs v w = .ok (bs ++ (List.range w).map fun t => v.toNat.testBit (w - 1 - t))) ∧
    (¬ (0 ≤ v ∧ v < 2 ^ w) → emit bs v w = .error (.modelFault (.emitOverflow v w)))) ∧
  ∀ cfg input ft f, freqCount input = .ok ft →
    fieldEncode cfg input ft (modeSelect ft.length input.length) ≠ .error (.modelFault f)

/-- R141, R68: a field read where all its bits are present is the number emitted there; a partial field of `r` bits at the end
of the stream has them as its high bits and 0 below. -/
def Obligations.ReadFieldReadsWhatWasEmitted : Prop :=
  (∀ (before after : BitStream) (v w : Nat), v < 2 ^ w →
    readField (before ++ natBits w v ++ after) before.length w = v) ∧
  ∀ (before : BitStream) (v r w : Nat), r ≤ w → v < 2 ^ r →
    readField (before ++ natBits r v) before.length w = v * 2 ^ (w - r)

/-- R104: the length of the stream FIELD_ENCODE returns, and its bit 0. -/
def Obligations.StreamLengthAndFlagBit : Prop :=
  ∀ cfg input ft mode bs, fieldEncode cfg input ft mode = .ok bs →
    bs.length = (match mode with
      | .grouped => 1 + 19 * ft.length
      | .raw => 1 + 9 * input.length) ∧
    bs.head? = some (mode == .grouped)

/-- R63, R102, R103: what an ENCODE in grouped mode lays out, field by field, read back from the payload. -/
def Obligations.GroupedFrameLayout : Prop :=
  ∀ cfg input w, encodeWork cfg input = .ok w → w.mode = .grouped →
    readField (bitUnpack w.p) 0 1 = 1 ∧ 0 < w.d ∧
    (∀ (k : Nat) (h : k < w.ft.length),
      (readField (bitUnpack w.p) (1 + 19 * k) 9 : Int) = w.ft[k].value ∧
      readField (bitUnpack w.p) (10 + 19 * k) 10 = w.ft[k].count % 1024 ∧
      (cfg.countOverflowPolicy = .reject → readField (bitUnpack w.p) (10 + 19 * k) 10 = w.ft[k].count)) ∧
    w.p.length = (1 + 19 * w.d + 7) / 8 ∧
    (bitUnpack w.p).drop (1 + 19 * w.d) = List.replicate (8 * w.p.length - (1 + 19 * w.d)) false

/-- R64, R103: what an ENCODE in raw mode lays out, field by field, read back from the payload. -/
def Obligations.RawFrameLayout : Prop :=
  ∀ cfg input w, encodeWork cfg input = .ok w → w.mode = .raw →
    readField (bitUnpack w.p) 0 1 = 0 ∧
    (∀ (k : Nat) (h : k < input.length), (readField (bitUnpack w.p) (1 + 9 * k) 9 : Int) = input[k]) ∧
    w.p.length = (1 + 9 * w.n + 7) / 8 ∧
    (bitUnpack w.p).drop (1 + 9 * w.n) = List.replicate (8 * w.p.length - (1 + 9 * w.n)) false

/-- R111: the padding is `(8 - L mod 8) mod 8` zero bits after the last bit of the stream and nowhere else. -/
def Obligations.PaddingIsAtMostSevenZeroBits : Prop :=
  ∀ cfg input w, encodeWork cfg input = .ok w →
    bitUnpack w.p = w.bs ++ List.replicate ((8 - w.bs.length % 8) % 8) false ∧
    (8 - w.bs.length % 8) % 8 = 8 * w.p.length - 1 - (match w.mode with
      | .grouped => 19 * w.d
      | .raw => 9 * w.n)

/-! ### ENCODE -/

/-- R160, R63, R64, R102: within capacity, every element legal, and no count of 1024 or more unless the policy is `Wrap`,
ENCODE answers the token of the input's frame; nothing but `RES` and the command in progress changes. -/
def Obligations.EncodeAnswersTheTokenOfItsFrame : Prop :=
  ∀ (s : State) (input : List Int), Fits s.cfg.maxInputLen input.length → AllLegal input →
    (s.cfg.countOverflowPolicy = .wrap ∨ ∀ v ∈ input, input.count v ≤ 1023) →
    exec (.encode input) s = .next
      { s with
        res := { valid := true, op := 0, status := 0, info := .none, out := .octets (tokenOf (frameFor input)) }
        inProgress := none }

/-- R182, R188(a): within capacity, an element outside [1, 300] ends ENCODE with DomainRangeError and the first such
element, whatever comes after it. -/
def Obligations.EncodeRaisesDomainRangeError : Prop :=
  ∀ (s : State) (before after : List Int) (x : Int),
    Fits s.cfg.maxInputLen (before ++ x :: after).length → AllLegal before → ¬ (1 ≤ x ∧ x ≤ 300) →
    exec (.encode (before ++ x :: after)) s = .next
      { s with
        res := { valid := true, op := 0, status := 1, info := .value x, out := .octets [] }
        inProgress := none }

/-- R183, R102(b): under `Reject`, within capacity and every element legal, a count of 1024 or more ends ENCODE with
CountOverflowError and the first such value, in first-occurrence order, with its count. -/
def Obligations.EncodeRaisesCountOverflowError : Prop :=
  ∀ (s : State) (input : List Int) (v : Int), Fits s.cfg.maxInputLen input.length → AllLegal input →
    s.cfg.countOverflowPolicy = .reject →
    input.eraseDups.find? (fun v => decide (1024 ≤ input.count v)) = some v →
    exec (.encode input) s = .next
      { s with
        res := { valid := true, op := 0, status := 2, info := .valueCount v (input.count v), out := .octets [] }
        inProgress := none }

/-- R187, R188: an operand longer than its limit ends either command with CapacityError, before any unit runs and so
whatever the operand holds. -/
def Obligations.OverlongOperandRaisesCapacityError : Prop :=
  (∀ (s : State) (input : List Int) (m : Nat), s.cfg.maxInputLen = some m → m < input.length →
    exec (.encode input) s = .next
      { s with
        res := { valid := true, op := 0, status := 5, info := .limit m, out := .octets [] }
        inProgress := none }) ∧
  ∀ (s : State) (token : List Byte) (m : Nat), s.cfg.maxTokenLen = some m → m < token.length →
    exec (.decode token) s = .next
      { s with
        res := { valid := true, op := 1, status := 5, info := .limit m, out := .naturals [] }
        inProgress := none }

/-- R164: bit 7 of the first byte of an ENCODE's payload is 1 exactly when `D * 19 < N * 9`. -/
def Obligations.ModeFlagOfTokenFollowsTheInequality : Prop :=
  ∀ (s t : State) (input : List Int) (token : List Byte), exec (.encode input) s = .next t → t.res.status = 0 →
    t.res.out = .octets token →
    (strictBytes token).head?.map (fun b => b.toNat.testBit 7) =
      some (decide (distinctCount input * 19 < input.length * 9))

/-! ### DECODE and the payload frames -/

/-- R143 grouped branch, R145, R146: with valid padding, or under `Reference`, a grouped frame answers its values, each as
often as its count says, in pair order, less trailing zeros.
That a frame itself ends the command, trims and writes `RES` with `op = 1`, as the DECODE that carries it does, is the
model's choice (log entry 6). What is said of a frame that is not well formed is the model's choice too (log entry 14). -/
def Obligations.GroupedFrameAnswersItsValues : Prop :=
  ∀ (s : State) (pairs : List (ValueField × CountField)) (tail : BitStream),
    (s.cfg.decodePolicy = .reference ∨ ValidPadding tail) →
    exec (.groupedFrame pairs tail) s = .next
      { s with
        res := { valid := true, op := 1, status := 0, info := .none
                 out := .naturals (trimZeros (pairs.flatMap fun p => List.replicate p.2.toNat p.1.toNat)) }
        inProgress := none }

/-- R143 raw branch, R144, R145, R146: with valid padding a raw frame answers its values; under `Reference` any bits left
count as one more value, their high bits first and the missing bits 0.
That a frame itself ends the command, trims and writes `RES` with `op = 1`, as the DECODE that carries it does, is the
model's choice (log entry 6). What is said of a frame that is not well formed is the model's choice too (log entry 14). -/
def Obligations.RawFrameAnswersItsValues : Prop :=
  ∀ (s : State) (values : List ValueField) (tail : BitStream),
    (s.cfg.decodePolicy = .strict → ValidPadding tail →
      exec (.rawFrame values tail) s = .next
        { s with
          res := { valid := true, op := 1, status := 0, info := .none
                   out := .naturals (trimZeros (values.map BitVec.toNat)) }
          inProgress := none }) ∧
    (s.cfg.decodePolicy = .reference → tail.length < 9 →
      exec (.rawFrame values tail) s = .next
        { s with
          res := { valid := true, op := 1, status := 0, info := .none
                   out := .naturals (trimZeros (values.map BitVec.toNat ++
                     if tail = [] then [] else [fieldValue tail * 2 ^ (9 - tail.length)])) }
          inProgress := none })

/-- R144, R185: under `Strict` a remainder of 8 bits or more, or with a 1 in it, ends the DECODE of either frame with
TruncatedStreamError, the stream's length and where the remainder starts.
That a frame itself ends the command, trims and writes `RES` with `op = 1`, as the DECODE that carries it does, is the
model's choice (log entry 6). What is said of a frame that is not well formed is the model's choice too (log entry 14). -/
def Obligations.BadRemainderRaisesTruncatedStreamError : Prop :=
  ∀ (s : State) (tail : BitStream), s.cfg.decodePolicy = .strict → ¬ ValidPadding tail →
    (∀ pairs : List (ValueField × CountField),
      exec (.groupedFrame pairs tail) s = .next
        { s with
          res := { valid := true, op := 1, status := 4
                   info := .stream (1 + 19 * pairs.length + tail.length) (1 + 19 * pairs.length), out := .naturals [] }
          inProgress := none }) ∧
    ∀ values : List ValueField,
      exec (.rawFrame values tail) s = .next
        { s with
          res := { valid := true, op := 1, status := 4
                   info := .stream (1 + 9 * values.length + tail.length) (1 + 9 * values.length), out := .naturals [] }
          inProgress := none }

/-- R161, R73: DECODE of a canonical token does exactly what the frame in its payload does: the cursor loops of R143 and the
frames of R63 and R64 are one machine. The frame's own meaning, on the right side, is the model's choice (log entry 6). -/
def Obligations.DecodeRunsTheFrameOfItsToken : Prop :=
  ∀ (s : State) (token : List Byte), Fits s.cfg.maxTokenLen token.length → canonical token = true → token ≠ [] →
    ∃ i, decodePayload (strictBytes token) = .ok i ∧ i.wf = true ∧ exec (.decode token) s = exec i s

/-- R161, R143 to R146: the token that carries a well-formed frame, within capacity: where its remainder is valid padding, or
under `Reference`, DECODE answers the frame's values less trailing zeros. -/
def Obligations.DecodeAnswersTheValuesOfItsFrame : Prop :=
  ∀ (s : State) (tail : BitStream),
    (∀ pairs : List (ValueField × CountField), (Instr.groupedFrame pairs tail).wf = true →
      Fits s.cfg.maxTokenLen (tokenOf (.groupedFrame pairs tail)).length →
      (s.cfg.decodePolicy = .reference ∨ ValidPadding tail) →
      exec (.decode (tokenOf (.groupedFrame pairs tail))) s = .next
        { s with
          res := { valid := true, op := 1, status := 0, info := .none
                   out := .naturals (trimZeros (pairs.flatMap fun p => List.replicate p.2.toNat p.1.toNat)) }
          inProgress := none }) ∧
    ∀ values : List ValueField, (Instr.rawFrame values tail).wf = true →
      Fits s.cfg.maxTokenLen (tokenOf (.rawFrame values tail)).length →
      (s.cfg.decodePolicy = .reference ∨ ValidPadding tail) →
      exec (.decode (tokenOf (.rawFrame values tail))) s = .next
        { s with
          res := { valid := true, op := 1, status := 0, info := .none
                   out := .naturals (trimZeros (values.map BitVec.toNat ++
                     if s.cfg.decodePolicy = .strict ∨ tail = [] then []
                     else [fieldValue tail * 2 ^ (9 - tail.length)])) }
          inProgress := none }

/-- R142, R144: the empty token is canonical and has no mode flag: TruncatedStreamError(0, 0) under `Strict`, the empty
sequence under `Reference`. -/
def Obligations.EmptyTokenByPolicy : Prop :=
  ∀ s : State,
    (s.cfg.decodePolicy = .strict → exec (.decode []) s = .next
      { s with
        res := { valid := true, op := 1, status := 4, info := .stream 0 0, out := .naturals [] }
        inProgress := none }) ∧
    (s.cfg.decodePolicy = .reference → exec (.decode []) s = .next
      { s with
        res := { valid := true, op := 1, status := 0, info := .none, out := .naturals [] }
        inProgress := none })

/-- R130, R184: under `Strict`, every token within capacity that is not canonical ends DECODE with FormatError, no info and
no output. -/
def Obligations.StrictRejectsEveryOtherToken : Prop :=
  ∀ (s : State) (token : List Byte), s.cfg.decodePolicy = .strict → Fits s.cfg.maxTokenLen token.length →
    canonical token = false →
    exec (.decode token) s = .next
      { s with
        res := { valid := true, op := 1, status := 3, info := .none, out := .naturals [] }
        inProgress := none }

/-- R131: under `Reference`, a token that is not canonical decodes as the payload `lenientB64` gives for it, whatever that
is: the frame in it, or the empty sequence for no bytes. `lenientB64` is a free value (log entry 2). -/
def Obligations.ReferenceDecodesTheLenientPayload : Prop :=
  ∀ (s : State) (token : List Byte), s.cfg.decodePolicy = .reference → Fits s.cfg.maxTokenLen token.length →
    canonical token = false →
    (Config.lenientB64 token = [] → exec (.decode token) s = .next (s.succeed 1 (.naturals []))) ∧
    (Config.lenientB64 token ≠ [] →
      ∃ i, decodePayload (Config.lenientB64 token) = .ok i ∧ i.wf = true ∧ exec (.decode token) s = exec i s)

/-- R161, R131: under `Reference`, DECODE raises nothing but CapacityError. -/
def Obligations.ReferenceDecodeNeverFails : Prop :=
  ∀ (s : State) (token : List Byte), s.cfg.decodePolicy = .reference → Fits s.cfg.maxTokenLen token.length →
    ∃ out, exec (.decode token) s = .next
      { s with
        res := { valid := true, op := 1, status := 0, info := .none, out := .naturals out }
        inProgress := none }

/-- R146: TRIM_ZEROS removes trailing zeros, all of them and nothing else. -/
def Obligations.TrimRemovesTrailingZerosOnly : Prop :=
  ∀ out : List Nat, ∃ k, out = trimZeros out ++ List.replicate k 0 ∧ (trimZeros out).getLast? ≠ some 0

/-- R205(b): in grouped mode the sequence has at most 1023 elements a pair. -/
def Obligations.GroupedOutputLengthBound : Prop :=
  ∀ (s t : State) (token : List Byte) (out : List Nat), canonical token = true →
    (strictBytes token).head?.map (fun b => b.toNat.testBit 7) = some true →
    exec (.decode token) s = .next t → t.res.out = .naturals out →
    out.length ≤ 1023 * ((8 * (strictBytes token).length - 1) / 19)

/-- R148's example, on the machine just after reset: the payload 00 C0 20 40 08, which R148 gets by dropping the last byte of
the payload of `[3, 1, 4, 1, 5]`, has the token "AMAgQAg=", and that token decodes without error to `[3, 1, 4, 1]`. -/
def Obligations.StrictMissesACutPayload : Prop :=
  b64Encode [0x00, 0xC0, 0x20, 0x40, 0x08] = [0x41, 0x4D, 0x41, 0x67, 0x51, 0x41, 0x67, 0x3D] ∧
  exec (.decode [0x41, 0x4D, 0x41, 0x67, 0x51, 0x41, 0x67, 0x3D]) State.reset =
    .next (State.reset.succeed 1 (.naturals [3, 1, 4, 1]))

/-! ### Laws of the commands, and of the machine -/

/-- R163 (a), (b) and the multiset law: the token of a legal input decodes, under either policy, to the input in raw mode and
to its values grouped in grouped mode; under `Reject` with the input's own multiset; under `Wrap` a count loses its
multiples of 1024. -/
def Obligations.DecodeOfEncodeRoundTrip : Prop :=
  ∀ (s t u : State) (input : List Int) (token : List Byte), AllLegal input →
    exec (.encode input) s = .next t → t.res.status = 0 → t.res.out = .octets token →
    Fits u.cfg.maxTokenLen token.length →
    exec (.decode token) u = .next
      { u with
        res := { valid := true, op := 1, status := 0, info := .none, out := .naturals (decodedOf input) }
        inProgress := none } ∧
    (s.cfg.countOverflowPolicy = .reject → ((decodedOf input).map fun (n : Nat) => (n : Int)).Perm input) ∧
    (distinctCount input * 19 < input.length * 9 →
      ∀ v ∈ input, (decodedOf input).count v.toNat = input.count v - 1024 * (input.count v / 1024))

/-- R165: `Strict` raises neither FormatError nor TruncatedStreamError on a token that ENCODE made. -/
def Obligations.StrictAcceptsEveryEncodedToken : Prop :=
  ∀ (s t u v : State) (input : List Int) (token : List Byte), exec (.encode input) s = .next t → t.res.status = 0 →
    t.res.out = .octets token → u.cfg.decodePolicy = .strict → exec (.decode token) u = .next v →
    v.res.status ≠ 3 ∧ v.res.status ≠ 4

/-- R167: the source's order example. -/
def Obligations.GroupedTokenLosesTheOrder : Prop :=
  exec (.encode [2, 1, 2, 1, 2, 1, 2, 1, 2]) State.reset =
    .next (State.reset.succeed 0 (.octets [0x67, 0x49, 0x42, 0x51, 0x43, 0x41, 0x67, 0x3D])) ∧
  exec (.decode [0x67, 0x49, 0x42, 0x51, 0x43, 0x41, 0x67, 0x3D]) State.reset =
    .next (State.reset.succeed 1 (.naturals [2, 2, 2, 2, 2, 1, 1, 1, 1]))

/-- R206: every command ends, having written `RES` once, and the block is idle; so does the run of every frame.
That a frame is run by the DECODE that carries it and writes its `RES` is the model's choice (log entry 6).
What is said of a frame that is not well formed is the model's choice (log entry 14). -/
def Obligations.EveryCommandEnds : Prop :=
  ∀ (i : Instr) (s : State), ∃ t, exec i s = .next t ∧ t.res.valid = true ∧ t.inProgress = none

/-- R162, R47, R203(d): the frame of all four instructions: a command changes `RES` and ends; it changes nothing else, and
`RES.op` is its own OP. A frame stands for the DECODE that carries it (log entry 6).
What is said of a frame that is not well formed is the model's choice (log entry 14). -/
def Obligations.CommandChangesNothingButRes : Prop :=
  ∀ (i : Instr) (s t : State), exec i s = .next t →
    t.cfg = s.cfg ∧ t.host = s.host ∧ t.lastRead = s.lastRead ∧ t.inProgress = none ∧ t.res.valid = true ∧
    t.res.op = (commandFor i).op

/-- R162, R67: after a successful ENCODE, `RES.out` is a token, non-empty and canonical, its length a multiple of 4; after a
successful DECODE it is a sequence of naturals in [0, 511]; after either, nothing but `RES` and the command in progress has
changed. -/
def Obligations.SuccessfulResultHasItsForm : Prop :=
  ∀ s t : State,
    (∀ input, exec (.encode input) s = .next t → t = { s with res := t.res, inProgress := none } ∧
      (t.res.status = 0 → ∃ token, t.res.out = .octets token ∧ token ≠ [] ∧ canonical token = true ∧
        token.length % 4 = 0)) ∧
    ∀ token, exec (.decode token) s = .next t → t = { s with res := t.res, inProgress := none } ∧
      (t.res.status = 0 → ∃ out, t.res.out = .naturals out ∧ ∀ n ∈ out, n ≤ 511)

/-- R20, R166: a command's result depends on its operand and the configuration alone, not on what came before.
A frame stands for the DECODE that carries it (log entry 6). What is said of a frame that is not well formed is the
model's choice (log entry 14). -/
def Obligations.ResultDependsOnOperandAndConfigurationOnly : Prop :=
  ∀ (i : Instr) (s u t : State), s.cfg = u.cfg → exec i s = .next t →
    ∃ v, exec i u = .next v ∧ v.res = t.res

/-- R16, R73: in an instance with no limit on tokens, the next step runs every well-formed instruction: a command is run as
itself, a frame by the DECODE of the token that carries it (log entry 6). -/
def Obligations.StepRunsEveryWellFormedInstruction : Prop :=
  ∀ (s : State) (i : Instr), i.wf = true → s.host = [] → s.cfg.maxTokenLen = none →
    s.inProgress = some (commandFor i) → step s = exec i s

/-- R22, R60, R67, R162, R181, R186: every step keeps the invariant `State.wf`: a valid `RES` holds a status, an info and an
output that belong together, and what the host has read does too. -/
def Obligations.StepKeepsTheStateWellFormed : Prop :=
  ∀ s t : State, s.wf = true → step s = .next t → t.wf = true

/-- The invariant holds after reset, whatever the configuration. -/
def Obligations.ResetStateIsWellFormed : Prop :=
  ∀ cfg : Config.Cfg, (State.resetWith cfg).wf = true

/-- R180, R203, R206: from a well-formed state whose host keeps the handshake, every step goes on: no fault, no
refusal (log entries 9 and 10 say where the others stop). -/
def Obligations.WellFormedStateStepsOn : Prop :=
  ∀ s : State, s.wf = true → s.hostBreaksHandshake = false → ∃ t, step s = .next t
end

