-- ==== Sys2Proof/Laws/Base64.lean ====
section
/-! SUPPORT. The transcoder, one character and one quantum at a time (42_base64.md): the pieces that proofs about whole tokens
are put together from, by induction on three bytes or on four characters. -/

namespace Sys2Proof.Machine

/-- The index of a character of the alphabet is below 64, and is its own (R120). -/
theorem sextet_enc64 (i : Nat) (h : i < 64) : sextet (enc64 i) = i := by
  revert i; decide

theorem inAlphabet_enc64 (i : Nat) (h : i < 64) : inAlphabet (enc64 i) = true := by
  revert i; decide

theorem enc64_sextet (o : Byte) (h : inAlphabet o = true) : enc64 (sextet o) = o := by
  revert o; decide

theorem sextet_lt (o : Byte) : sextet o < 64 := by
  revert o; decide

/-- The pad character is no character of the alphabet (R120). -/
@[simp] theorem inAlphabet_padChar : inAlphabet padChar = false := by decide

@[simp] theorem sextet_padChar : sextet padChar = 0 := by decide

/-- Every character the encoder writes for a sextet is in the alphabet, and has that sextet's index. -/
@[simp] theorem inAlphabet_sextetChar (n k : Nat) : inAlphabet (sextetChar n k) = true :=
  inAlphabet_enc64 _ (Nat.mod_lt _ (by decide))

@[simp] theorem sextet_sextetChar (n k : Nat) : sextet (sextetChar n k) = n / 2 ^ (6 * k) % 64 :=
  sextet_enc64 _ (Nat.mod_lt _ (by decide))

/-- The character for a sextet of a quantum of characters is the character there. -/
theorem sextetChar_eq (n k : Nat) (o : Byte) (h : inAlphabet o = true) (hn : n / 2 ^ (6 * k) % 64 = sextet o) :
    sextetChar n k = o := by
  rw [sextetChar, hn, enc64_sextet o h]

/-- What R129(c) counts, form by form. -/
theorem padCount_eq_zero (c2 c3 : Byte) : padCount c2 c3 = some 0 ↔ inAlphabet c2 = true ∧ inAlphabet c3 = true := by
  unfold padCount; split_ifs <;> simp_all

theorem padCount_eq_one (c2 c3 : Byte) : padCount c2 c3 = some 1 ↔ inAlphabet c2 = true ∧ c3 = padChar := by
  rcases eq_or_ne c3 padChar with rfl | h3
  · unfold padCount; split_ifs <;> simp_all
  · unfold padCount; split_ifs <;> simp_all

theorem padCount_eq_two (c2 c3 : Byte) : padCount c2 c3 = some 2 ↔ c2 = padChar ∧ c3 = padChar := by
  rcases eq_or_ne c2 padChar with rfl | h2
  · unfold padCount; split_ifs <;> simp_all
  · unfold padCount; split_ifs <;> simp_all

/-- The last quantum of a canonical token has one of three forms, with its unused bits 0 (R129(c), (d)). -/
theorem lastQuantumOk_iff (c0 c1 c2 c3 : Byte) :
    lastQuantumOk c0 c1 c2 c3 = true ↔
      inAlphabet c0 = true ∧ inAlphabet c1 = true ∧
        ((padCount c2 c3 = some 0) ∨ (padCount c2 c3 = some 1 ∧ sextet c2 % 4 = 0) ∨
          (padCount c2 c3 = some 2 ∧ sextet c1 % 16 = 0)) := by
  unfold lastQuantumOk
  rw [Bool.and_eq_true, Bool.and_eq_true, and_assoc]
  refine and_congr_right fun _ => and_congr_right fun _ => ?_
  rcases h : padCount c2 c3 with _ | (_ | _ | _ | n) <;> simp

/-- Each byte of a quantum of bytes, recovered from its 24 bits. -/
theorem quantumByte_quantumOfBytes (b0 b1 b2 : Byte) :
    quantumByte (quantumOfBytes b0 b1 b2) 2 = b0 ∧ quantumByte (quantumOfBytes b0 b1 b2) 1 = b1 ∧
      quantumByte (quantumOfBytes b0 b1 b2) 0 = b2 := by
  have h0 := b0.isLt; have h1 := b1.isLt; have h2 := b2.isLt
  refine ⟨?_, ?_, ?_⟩ <;> apply BitVec.eq_of_toNat_eq <;> simp only [quantumByte, quantumOfBytes, BitVec.toNat_ofNat] <;> omega

theorem quantumOfBytes_lt (b0 b1 b2 : Byte) : quantumOfBytes b0 b1 b2 < 2 ^ 24 := by
  have h0 := b0.isLt; have h1 := b1.isLt; have h2 := b2.isLt
  unfold quantumOfBytes; omega

/-- The four sextets of 24 bits make those bits again. -/
theorem quantumOfChars_sextetChars (n : Nat) (h : n < 2 ^ 24) :
    quantumOfChars (sextetChar n 3) (sextetChar n 2) (sextetChar n 1) (sextetChar n 0) = n := by
  simp only [quantumOfChars, sextet_sextetChar]; omega

/-- The three bytes of the 24 bits of four characters make those bits again. -/
theorem quantumOfBytes_quantumBytes (n : Nat) (h : n < 2 ^ 24) :
    quantumOfBytes (quantumByte n 2) (quantumByte n 1) (quantumByte n 0) = n := by
  simp only [quantumOfBytes, quantumByte, BitVec.toNat_ofNat]; omega

theorem quantumOfChars_lt (c0 c1 c2 c3 : Byte) : quantumOfChars c0 c1 c2 c3 < 2 ^ 24 := by
  have h0 := sextet_lt c0; have h1 := sextet_lt c1; have h2 := sextet_lt c2; have h3 := sextet_lt c3
  unfold quantumOfChars; omega

end Sys2Proof.Machine
end

