-- ==== Sys2Proof/Laws/Bits.lean ====
section
/-! SUPPORT. Fields in a bit stream: `natBits` and `fieldValue` are inverse on fields that fit, and `readField` reads the
window of the stream that starts at its position. -/

namespace Sys2Proof.Machine

@[simp] theorem natBits_length (w v : Nat) : (natBits w v).length = w := by
  induction w with
  | zero => rfl
  | succ w ih => simp [natBits, ih]

@[simp] theorem fieldValue_nil : fieldValue [] = 0 := rfl

theorem fieldValue_foldl (bits : BitStream) (a : Nat) :
    bits.foldl (fun v b => 2 * v + b.toNat) a = a * 2 ^ bits.length + fieldValue bits := by
  induction bits generalizing a with
  | nil => simp
  | cons b bits ih =>
    simp only [List.foldl_cons, fieldValue, List.length_cons, Nat.pow_succ]
    rw [ih, ih (2 * 0 + b.toNat)]
    ring

theorem fieldValue_cons (b : Bool) (bits : BitStream) :
    fieldValue (b :: bits) = b.toNat * 2 ^ bits.length + fieldValue bits := by
  have h := fieldValue_foldl bits (2 * 0 + b.toNat)
  simpa [fieldValue] using h

theorem fieldValue_append (a b : BitStream) : fieldValue (a ++ b) = fieldValue a * 2 ^ b.length + fieldValue b := by
  rw [fieldValue, List.foldl_append, fieldValue_foldl]; rfl

theorem fieldValue_lt (bits : BitStream) : fieldValue bits < 2 ^ bits.length := by
  induction bits with
  | nil => simp
  | cons b bits ih =>
    rw [fieldValue_cons, List.length_cons, Nat.pow_succ]
    cases b <;> simp <;> omega

@[simp] theorem fieldValue_zeros (n : Nat) : fieldValue (List.replicate n false) = 0 := by
  induction n with
  | zero => rfl
  | succ n ih => simp [List.replicate_succ, fieldValue_cons, ih]

/-- The bits of a number below `2 ^ w` make that number; of any number, the number modulo `2 ^ w`. -/
theorem fieldValue_natBits (w v : Nat) : fieldValue (natBits w v) = v % 2 ^ w := by
  induction w with
  | zero => simp [natBits, Nat.mod_one]
  | succ w ih =>
    rw [natBits, fieldValue_cons, ih, natBits_length, Nat.testBit_eq_decide_div_mod_eq, Nat.pow_succ, Nat.mod_mul]
    rcases Nat.mod_two_eq_zero_or_one (v / 2 ^ w) with h | h
    · simp [h]
    · simp [h]; omega

theorem natBits_mod (w v m : Nat) (h : w ≤ m) : natBits w (v % 2 ^ m) = natBits w v := by
  induction w with
  | zero => rfl
  | succ w ih =>
    rw [natBits, natBits, ih (by omega), Nat.testBit_mod_two_pow]
    simp [show w < m by omega]

theorem natBits_fieldValue (bits : BitStream) : natBits bits.length (fieldValue bits) = bits := by
  induction bits with
  | nil => rfl
  | cons b bits ih =>
    have hlt := fieldValue_lt bits
    rw [List.length_cons, natBits, fieldValue_cons]
    congr 1
    · rw [Nat.testBit_eq_decide_div_mod_eq, Nat.mul_comm, Nat.mul_add_div (Nat.two_pow_pos _),
        Nat.div_eq_of_lt hlt]
      cases b <;> simp
    · rw [← natBits_mod _ _ bits.length le_rfl, Nat.mul_comm, Nat.mul_add_mod, Nat.mod_eq_of_lt hlt, ih]

/-- `natBits` by places, as 20_memory.md R42 says it: place `t` holds bit `w - 1 - t`. -/
theorem natBits_eq_map (w v : Nat) : natBits w v = (List.range w).map fun t => v.testBit (w - 1 - t) := by
  induction w with
  | zero => rfl
  | succ w ih =>
    rw [natBits, ih, List.range_succ_eq_map]
    simp only [List.map_cons, List.map_map, Nat.sub_zero]
    congr 1
    refine List.map_congr_left fun t _ => ?_
    simp only [Function.comp, Nat.succ_eq_add_one]
    congr 1
    omega

/-- What `readField` reads: the window of the stream, filled up with zeros (R141). -/
theorem readField_window (bits : BitStream) (pos w : Nat) :
    readField bits pos w =
      fieldValue (((bits.drop pos).take w) ++ List.replicate (w - (bits.length - pos)) false) := by
  unfold readField
  congr 1
  apply List.ext_getElem
  · simp; omega
  · intro i h1 h2
    simp only [List.length_map, List.length_range] at h1
    simp only [List.getElem_map, List.getElem_range, List.getD_eq_getElem?_getD]
    by_cases h : pos + i < bits.length
    · rw [List.getElem_append_left (by simp; omega)]
      simp [h]
    · rw [List.getElem_append_right (by simp; omega)]
      simp [Nat.le_of_not_lt h]

/-- A field whose bits are all present is the number they make. -/
theorem readField_eq (bits : BitStream) (pos w : Nat) (h : pos + w ≤ bits.length) :
    readField bits pos w = fieldValue ((bits.drop pos).take w) := by
  rw [readField_window, show w - (bits.length - pos) = 0 by omega]; simp

/-- A field read in the middle of three pieces. -/
theorem readField_append (a b c : BitStream) : readField (a ++ b ++ c) a.length b.length = fieldValue b := by
  rw [readField_eq _ _ _ (by simp)]; simp

theorem readField_lt (bits : BitStream) (pos w : Nat) : readField bits pos w < 2 ^ w := by
  unfold readField
  exact lt_of_lt_of_eq (fieldValue_lt _) (by simp)

end Sys2Proof.Machine
end

