-- ==== Sys2Proof/Laws/Count.lean ====
section
/-! SUPPORT. All that the Frequency Counter can answer (40_count_and_select.md R80, R81): on a legal input, each distinct value in
first-occurrence order with its number of occurrences; otherwise the first illegal element. -/

namespace Sys2Proof.Machine

/-- R5's constraint on its constants: every legal value is positive and fits a value field. -/
theorem constants_constraint :
    1 ≤ Config.valueMin ∧ Config.valueMin ≤ Config.valueMax ∧ Config.valueMax < 2 ^ Config.valueBits := by decide

theorem legalValue_iff (x : Int) : legalValue x = true ↔ 1 ≤ x ∧ x ≤ 300 := by
  simp [legalValue]

/-- The table of a sequence, said without the loop. -/
def tableOf (input : List Int) : FreqTable := input.eraseDups.map fun v => ⟨v, input.count v⟩

/-- One more value in a table whose values are the distinct members of `l`. -/
theorem countValue_map (x : Int) (f : Int → Nat) (l : List Int) (h : l.Nodup) :
    countValue x (l.map fun v => ⟨v, f v⟩) =
      if x ∈ l then l.map fun v => ⟨v, if v = x then f v + 1 else f v⟩ else (l.map fun v => ⟨v, f v⟩) ++ [⟨x, 1⟩] := by
  induction l with
  | nil => simp [countValue]
  | cons a l ih =>
    obtain ⟨ha, hl⟩ := List.nodup_cons.mp h
    simp only [List.map_cons, countValue]
    by_cases hax : a = x
    · subst hax
      simp only [↓reduceIte, List.mem_cons, true_or]
      congr 1
      refine List.map_congr_left fun v hv => ?_
      have hne : v ≠ a := fun hva => ha (hva ▸ hv)
      rw [if_neg hne]
    · rw [if_neg hax, ih hl]
      by_cases hx : x ∈ l
      · simp [hx, hax]
      · simp [hx, Ne.symm hax]

theorem nodup_eraseDups (l : List Int) : l.eraseDups.Nodup := by
  induction hn : l.length using Nat.strong_induction_on generalizing l with
  | _ n ih =>
    match l with
    | [] => simp
    | a :: l =>
      rw [List.eraseDups_cons]
      refine List.nodup_cons.mpr ⟨by simp, ?_⟩
      exact ih _ (lt_of_le_of_lt (List.length_filter_le _ _) (by simp [← hn])) _ rfl

theorem eraseDups_snoc (l : List Int) (x : Int) :
    (l ++ [x]).eraseDups = if x ∈ l then l.eraseDups else l.eraseDups ++ [x] := by
  rw [List.eraseDups_append]
  have hs : [x].eraseDups = [x] := by rw [List.eraseDups_cons]; simp
  by_cases h : x ∈ l <;> simp [List.removeAll, h, hs]

/-- Counting one more value takes the table of a sequence to the table of the sequence with it at the end. -/
theorem countValue_tableOf (input : List Int) (x : Int) : countValue x (tableOf input) = tableOf (input ++ [x]) := by
  unfold tableOf
  rw [countValue_map _ _ _ (nodup_eraseDups input), eraseDups_snoc]
  by_cases h : x ∈ input
  · simp only [List.mem_eraseDups, h, ↓reduceIte]
    refine List.map_congr_left fun v _ => ?_
    by_cases hv : v = x
    · simp [List.count_append, hv]
    · simp [List.count_append, hv, Ne.symm hv]
  · simp only [List.mem_eraseDups, h, ↓reduceIte, List.map_append, List.map_cons, List.map_nil]
    congr 1
    · refine List.map_congr_left fun v hv => ?_
      have : x ≠ v := fun hxv => h (hxv ▸ List.mem_eraseDups.mp hv)
      simp [List.count_append, this]
    · simp [List.count_append, List.count_eq_zero_of_not_mem h]

/-- The loop, from the table of what came before. -/
theorem freqCountFrom_legal (before input : List Int) (h : ∀ x ∈ input, legalValue x = true) :
    freqCountFrom (tableOf before) input = .ok (tableOf (before ++ input)) := by
  induction input generalizing before with
  | nil => simp [freqCountFrom]
  | cons x input ih =>
    rw [freqCountFrom, if_pos (h x (by simp)), countValue_tableOf, ih _ (fun y hy => h y (by simp [hy]))]
    simp

/-- FREQ_COUNT of a legal input. -/
theorem freqCount_legal (input : List Int) (h : ∀ x ∈ input, legalValue x = true) :
    freqCount input = .ok (tableOf input) := by
  have := freqCountFrom_legal [] input h
  simpa [freqCount, tableOf] using this

/-- FREQ_COUNT of any other input: the first illegal element. -/
theorem freqCount_illegal (before after : List Int) (x : Int) (h : ∀ y ∈ before, legalValue y = true)
    (hx : legalValue x = false) (ft : FreqTable) :
    freqCountFrom ft (before ++ x :: after) = .error (.raised (.domainRange x)) := by
  induction before generalizing ft with
  | nil => simp [freqCountFrom, hx, raise]
  | cons y before ih =>
    rw [List.cons_append, freqCountFrom, if_pos (h y (by simp))]
    exact ih (fun z hz => h z (by simp [hz])) _

/-- A sequence is legal, or has a first illegal element. -/
theorem legal_or_first_illegal (input : List Int) :
    (∀ x ∈ input, legalValue x = true) ∨
      ∃ before x after, input = before ++ x :: after ∧ (∀ y ∈ before, legalValue y = true) ∧ legalValue x = false := by
  induction input with
  | nil => exact .inl (by simp)
  | cons a input ih =>
    cases ha : legalValue a with
    | false => exact .inr ⟨[], a, input, rfl, by simp, ha⟩
    | true =>
      rcases ih with h | ⟨before, x, after, rfl, hb, hx⟩
      · exact .inl (by simpa [ha] using h)
      · exact .inr ⟨a :: before, x, after, rfl, by simpa [ha] using hb, hx⟩

end Sys2Proof.Machine
end

