-- ==== Sys2Proof/Laws/Fields.lean ====
section
/-! SUPPORT. All that the Field Encoder's parts can answer (41_field_encode_pack.md R100 to R102), the cases of TRAILING
(43_unpack_field_decode.md R144, R145), and the two ways a list can end before TRIM_ZEROS (R146). -/

namespace Sys2Proof.Machine

/-- The mode flag's two readings (R62, R142), and the missing flag's (R141, D20). -/
@[simp] theorem streamMode_true (bits : BitStream) : streamMode (true :: bits) = .grouped := rfl
@[simp] theorem streamMode_false (bits : BitStream) : streamMode (false :: bits) = .raw := rfl
@[simp] theorem streamMode_nil : streamMode [] = .raw := rfl

/-- `Emit` on a value that fits (R101). -/
theorem emit_fits (bs : BitStream) (v : Int) (w : Nat) (h : 0 ≤ v ∧ v < 2 ^ w) :
    emit bs v w = .ok (bs ++ natBits w v.toNat) := if_pos h

/-- What an answer of `Emit` says of its operands. -/
theorem emit_ok {bs r : BitStream} {v : Int} {w : Nat} (h : emit bs v w = .ok r) :
    r = bs ++ natBits w v.toNat ∧ 0 ≤ v ∧ v < 2 ^ w := by
  unfold emit at h
  split at h
  · next hc => cases h; exact ⟨rfl, hc⟩
  · cases h

/-- Two units in a row answer only where both do. -/
theorem unit_bind_ok {α β : Type} {x : UnitResult α} {f : α → UnitResult β} {r : β} (h : (x >>= f) = .ok r) :
    ∃ a, x = .ok a ∧ f a = .ok r := by
  cases x with
  | error e => cases h
  | ok a => exact ⟨a, rfl, h⟩

/-- The mode, as an inequality (R90). -/
theorem modeSelect_grouped_iff (d n : Nat) : modeSelect d n = .grouped ↔ 19 * d < 9 * n := by
  simp only [modeSelect, Config.groupedCost, Config.rawCost, Config.valueBits, Config.countBits]
  split <;> simp <;> omega

theorem modeSelect_raw_iff (d n : Nat) : modeSelect d n = .raw ↔ 9 * n ≤ 19 * d := by
  simp only [modeSelect, Config.groupedCost, Config.rawCost, Config.valueBits, Config.countBits]
  split <;> simp <;> omega

/-- A legal value fits a value field (R5's constraint). -/
theorem legalValue_fits (x : Int) (h : legalValue x = true) : 0 ≤ x ∧ x < 2 ^ Config.valueBits := by
  rw [legalValue_iff] at h; constructor <;> norm_num [Config.valueBits] <;> omega

/-- A count modulo 1024 fits a count field (R102). -/
theorem count_fits (c : Nat) : (0 : Int) ≤ ((c % 2 ^ Config.countBits : Nat) : Int) ∧
    ((c % 2 ^ Config.countBits : Nat) : Int) < 2 ^ Config.countBits := by
  norm_num [Config.countBits]; omega

/-- The stream bits of one entry of the table (R63, R102). -/
def entryBits (e : Entry) : BitStream :=
  natBits Config.valueBits e.value.toNat ++ natBits Config.countBits (e.count % 2 ^ Config.countBits)

theorem entryBits_length (e : Entry) : (entryBits e).length = 19 := by
  simp [entryBits, Config.valueBits, Config.countBits]

theorem emitPairs_legal (ft : FreqTable) (h : ∀ e ∈ ft, legalValue e.value = true) (bs : BitStream) :
    emitPairs bs ft = .ok (bs ++ ft.flatMap entryBits) := by
  induction ft generalizing bs with
  | nil => simp [emitPairs]
  | cons e ft ih =>
    have hv := emit_fits bs _ _ (legalValue_fits _ (h e (by simp)))
    have hc := emit_fits (bs ++ natBits Config.valueBits e.value.toNat) _ _ (count_fits e.count)
    rw [Int.toNat_natCast] at hc
    simp only [emitPairs, hv, bind, Except.bind, hc]
    rw [ih (fun d hd => h d (by simp [hd]))]
    simp [entryBits]

theorem emitValues_legal (input : List Int) (h : ∀ x ∈ input, legalValue x = true) (bs : BitStream) :
    emitValues bs input = .ok (bs ++ input.flatMap fun x => natBits Config.valueBits x.toNat) := by
  induction input generalizing bs with
  | nil => simp [emitValues]
  | cons x input ih =>
    have hv := emit_fits bs _ _ (legalValue_fits _ (h x (by simp)))
    simp only [emitValues, hv, bind, Except.bind]
    rw [ih (fun d hd => h d (by simp [hd]))]
    simp

/-- The mode flag's bit. -/
theorem emit_flag (mode : Mode) : emit [] (mode.flag : Int) Config.flagBits = .ok [mode == .grouped] := by
  cases mode <;> decide

/-- R102: the counts pass, or the first that does not raises, under `Reject` only. -/
theorem checkCounts_cases (policy : Config.CountOverflowPolicy) (ft : FreqTable) :
    (checkCounts policy ft = .ok () ∧ (policy = .wrap ∨ ∀ e ∈ ft, e.count ≤ 1023)) ∨
    ∃ e, policy = .reject ∧ ft.find? (fun e => decide (1024 ≤ e.count)) = some e ∧
      checkCounts policy ft = .error (.raised (.countOverflow e.value e.count)) := by
  cases policy with
  | wrap => exact .inl ⟨rfl, .inl rfl⟩
  | reject =>
    simp only [checkCounts, Config.countBits, ge_iff_le, show 2 ^ 10 = 1024 from rfl]
    cases h : ft.find? (fun e => decide (1024 ≤ e.count)) with
    | none =>
      refine .inl ⟨by simp, .inr fun e he => ?_⟩
      have := List.find?_eq_none.mp h e he
      simp at this; omega
    | some e => exact .inr ⟨e, by simp, by simp, by simp [raise]⟩

/-- FIELD_ENCODE in grouped mode, once the counts have passed. -/
theorem fieldEncode_grouped (cfg : Config.Cfg) (input : List Int) (ft : FreqTable)
    (hc : checkCounts cfg.countOverflowPolicy ft = .ok ()) (h : ∀ e ∈ ft, legalValue e.value = true) :
    fieldEncode cfg input ft .grouped = .ok (true :: ft.flatMap entryBits) := by
  simp only [fieldEncode, emit_flag, bind, Except.bind, hc]
  rw [emitPairs_legal ft h]; simp

/-- FIELD_ENCODE in raw mode. -/
theorem fieldEncode_raw (cfg : Config.Cfg) (input : List Int) (ft : FreqTable) (h : ∀ x ∈ input, legalValue x = true) :
    fieldEncode cfg input ft .raw = .ok (false :: input.flatMap fun x => natBits Config.valueBits x.toNat) := by
  simp only [fieldEncode, emit_flag, bind, Except.bind]
  rw [emitValues_legal input h]; simp

/-- TRAILING under `Strict`, both ways (R144). -/
theorem trailingStrict_valid (len pos : Nat) (tail : BitStream) (h : tail.length < 8 ∧ ∀ b ∈ tail, b = false) :
    trailingStrict len pos tail = .ok () := by
  refine if_neg ?_
  simp only [Config.byteBits, List.any_eq_true, id, not_or, not_exists, not_and]
  exact ⟨by omega, fun b hb => by simp [h.2 b hb]⟩

theorem trailingStrict_invalid (len pos : Nat) (tail : BitStream) (h : ¬ (tail.length < 8 ∧ ∀ b ∈ tail, b = false)) :
    trailingStrict len pos tail = .error (.raised (.truncatedStream len pos)) := by
  refine if_pos ?_
  by_contra hn
  simp only [Config.byteBits, List.any_eq_true, id, not_or, not_exists, not_and] at hn
  exact h ⟨by omega, fun b hb => by simpa using hn.2 b hb⟩

/-- Where TRAILING leaves the cursor (R144, R145). -/
@[simp] theorem trailingPos_grouped (cfg : Config.Cfg) (len pos : Nat) (tail : BitStream) :
    trailingPos cfg len pos tail .grouped = pos := by
  unfold trailingPos; cases cfg.decodePolicy <;> rfl

theorem trailingPos_le (cfg : Config.Cfg) (len pos : Nat) (tail : BitStream) (mode : Mode) (h : pos ≤ len) :
    pos ≤ trailingPos cfg len pos tail mode ∧ trailingPos cfg len pos tail mode ≤ len := by
  unfold trailingPos
  split
  · split <;> omega
  · omega
  · omega

/-- What an answer of TRAILING can be (R144, R145). -/
theorem trailing_ok {cfg : Config.Cfg} {len pos : Nat} {tail : BitStream} {mode : Mode} {out r : List Nat}
    (h : trailing cfg len pos tail mode out = .ok r) : r = out ∨ r = out ++ trailingReference mode tail := by
  unfold trailing at h
  split at h
  · obtain ⟨_, _, h⟩ := unit_bind_ok h; cases h; exact .inl rfl
  · cases h; exact .inr rfl

/-- The ways B64_DECODE ends (R128). -/
theorem b64Decode_cases (cfg : Config.Cfg) (token : List Byte) :
    (canonical token = true ∧ b64Decode cfg token = .ok (strictBytes token)) ∨
    (canonical token = false ∧ cfg.decodePolicy = .strict ∧ b64Decode cfg token = .error (.raised .format)) ∨
    (canonical token = false ∧ cfg.decodePolicy = .reference ∧
      b64Decode cfg token = .ok (Config.lenientB64 token)) := by
  unfold b64Decode
  cases hc : canonical token with
  | true => exact .inl ⟨rfl, rfl⟩
  | false =>
    cases hp : cfg.decodePolicy with
    | strict => exact .inr (.inl ⟨rfl, rfl, rfl⟩)
    | reference => exact .inr (.inr ⟨rfl, rfl, by simp⟩)

/-- A list that does not end in 0 is not trimmed (R146). -/
theorem trimZeros_of_last (out : List Nat) (h : out.getLast? ≠ some 0) : trimZeros out = out := by
  rcases out.eq_nil_or_concat with rfl | ⟨l, a, rfl⟩
  · rfl
  · have : a ≠ 0 := by simpa using h
    simp [trimZeros, this]

/-- A 0 at the end is trimmed (R146). -/
theorem trimZeros_snoc_zero (out : List Nat) : trimZeros (out ++ [0]) = trimZeros out := by simp [trimZeros]

theorem trimZeros_mem (out : List Nat) (n : Nat) (h : n ∈ trimZeros out) : n ∈ out := by
  simp only [trimZeros, List.mem_reverse] at h
  simpa using (List.dropWhile_sublist _).subset h

theorem trimZeros_length_le (out : List Nat) : (trimZeros out).length ≤ out.length := by
  simpa [trimZeros] using (List.dropWhile_sublist (l := out.reverse) (fun n => n == 0)).length_le

end Sys2Proof.Machine
end

