-- ==== Sys2Proof/Laws/Pack.lean ====
section
/-! SUPPORT. The Bit Packer and Unpacker, one byte at a time: the pieces that a proof of their inverse law (R140), of lengths
(R110) and of places (R41) is put together from. -/

namespace Sys2Proof.Machine

@[simp] theorem bitUnpack_nil : bitUnpack [] = [] := rfl

@[simp] theorem bitUnpack_cons (b : Byte) (p : List Byte) : bitUnpack (b :: p) = natBits 8 b.toNat ++ bitUnpack p := rfl

@[simp] theorem bitUnpack_length (p : List Byte) : (bitUnpack p).length = 8 * p.length := by
  induction p with
  | nil => rfl
  | cons b p ih => simp [ih]; omega

theorem bitUnpack_eq_nil (p : List Byte) : bitUnpack p = [] ↔ p = [] := by
  rw [← List.length_eq_zero_iff, bitUnpack_length, ← List.length_eq_zero_iff]; omega

/-- Eight bits make the byte whose bits, most significant first, they are. -/
theorem packBytes_eight (chunk rest : BitStream) (h : chunk.length = 8) :
    packBytes (chunk ++ rest) = BitVec.ofNat 8 (fieldValue chunk) :: packBytes rest := by
  have hlen : (chunk ++ rest).length / 8 = rest.length / 8 + 1 := by simp [h]
  have htail (j : Nat) : (chunk ++ rest).drop (8 * (j + 1)) = rest.drop (8 * j) := by
    rw [show 8 * (j + 1) = 8 + 8 * j by omega, ← List.drop_drop, List.drop_left' h]
  simp only [packBytes, Config.byteBits, hlen, List.range_succ_eq_map, List.map_cons, List.map_map, Nat.mul_zero,
    List.drop_zero, List.take_left' h]
  congr 1
  exact List.map_congr_left fun j _ => by simp only [Function.comp, Nat.succ_eq_add_one, htail]

/-- A byte's eight bits come back as that byte. -/
theorem packBytes_natBits (b : Byte) (rest : BitStream) : packBytes (natBits 8 b.toNat ++ rest) = b :: packBytes rest := by
  rw [packBytes_eight _ _ (natBits_length _ _), fieldValue_natBits]
  congr 1
  apply BitVec.eq_of_toNat_eq
  have := b.isLt
  simp only [BitVec.toNat_ofNat]
  omega

/-- A stream of whole bytes is a byte's bits and a stream of whole bytes, or empty: the induction of every proof about
packing. -/
theorem wholeBytes_cases (bs : BitStream) (h : bs.length % 8 = 0) :
    bs = [] ∨ ∃ chunk rest, bs = chunk ++ rest ∧ chunk.length = 8 ∧ rest.length % 8 = 0 ∧ rest.length < bs.length := by
  rcases Nat.eq_zero_or_pos bs.length with h0 | h0
  · exact .inl (List.length_eq_zero_iff.mp h0)
  · refine .inr ⟨bs.take 8, bs.drop 8, (List.take_append_drop 8 bs).symm, ?_, ?_, ?_⟩ <;> simp <;> omega

theorem packBytes_length (bs : BitStream) (h : bs.length % 8 = 0) : (packBytes bs).length = bs.length / 8 := by
  induction hn : bs.length using Nat.strong_induction_on generalizing bs with
  | _ n ih =>
    rcases wholeBytes_cases bs h with rfl | ⟨chunk, rest, rfl, hc, hr, hlt⟩
    · simp [← hn, packBytes]
    · rw [packBytes_eight _ _ hc, List.length_cons, ih rest.length (hn ▸ hlt) rest hr rfl, ← hn]
      simp [hc]

theorem padLength_lt (n : Nat) : padLength n < 8 := Nat.mod_lt _ (by decide)

theorem padLength_whole (n : Nat) : (n + padLength n) % 8 = 0 := by
  simp only [padLength, Config.byteBits]; omega

end Sys2Proof.Machine
end

