-- ==== Sys2Proof/Laws/Frames.lean ====
section
/-! SUPPORT. The frame decoder and the cursor loops of FIELD_DECODE on a stream that is laid out as 30_encoding.md R63 and R64
say: whole fields, and a remainder too short for one more. -/

namespace Sys2Proof.Machine

open Sys2Proof

/-- The stream bits of a pair (R63). -/
def pairBits (p : ValueField × CountField) : BitStream :=
  natBits Config.valueBits p.1.toNat ++ natBits Config.countBits p.2.toNat

/-- The stream bits of a value (R64). -/
def valueBitsOf (v : ValueField) : BitStream := natBits Config.valueBits v.toNat

@[simp] theorem pairBits_length (p : ValueField × CountField) : (pairBits p).length = 19 := by
  simp [pairBits, Config.valueBits, Config.countBits]

@[simp] theorem valueBitsOf_length (v : ValueField) : (valueBitsOf v).length = 9 := by
  simp [valueBitsOf, Config.valueBits]

@[simp] theorem pairsBits_length (ps : List (ValueField × CountField)) : (ps.flatMap pairBits).length = 19 * ps.length := by
  induction ps with
  | nil => rfl
  | cons p ps ih => simp [ih]; omega

@[simp] theorem valuesBits_length (vs : List ValueField) : (vs.flatMap valueBitsOf).length = 9 * vs.length := by
  induction vs with
  | nil => rfl
  | cons p ps ih => simp [ih]; omega

theorem fieldValue_toNat {w : Nat} (v : BitVec w) : fieldValue (natBits w v.toNat) = v.toNat := by
  rw [fieldValue_natBits, Nat.mod_eq_of_lt v.isLt]

/-- A pair read back from its own bits. -/
theorem pairOfBits_pairBits (p : ValueField × CountField) (rest : BitStream) : pairOfBits (pairBits p ++ rest) = p := by
  have h9 : (natBits Config.valueBits p.1.toNat).length = Config.valueBits := natBits_length _ _
  have h10 : (natBits Config.countBits p.2.toNat).length = Config.countBits := natBits_length _ _
  unfold pairOfBits pairBits
  rw [List.append_assoc, List.take_left' h9, List.drop_left' h9, List.take_left' h10, fieldValue_toNat,
    fieldValue_toNat]
  simp

/-- The bits of a pair read from 19 bits are those bits. -/
theorem pairBits_pairOfBits (chunk rest : BitStream) (h : chunk.length = 19) :
    pairBits (pairOfBits (chunk ++ rest)) = chunk := by
  have h1 : (chunk ++ rest).take Config.valueBits = chunk.take 9 := by
    rw [List.take_append_of_le_length (by simp [h, Config.valueBits])]
  have h2 : ((chunk ++ rest).drop Config.valueBits).take Config.countBits = chunk.drop 9 := by
    rw [List.drop_append_of_le_length (by simp [h, Config.valueBits])]
    exact List.take_left' (by simp [h, Config.valueBits, Config.countBits])
  unfold pairBits pairOfBits
  rw [h1, h2]
  have l1 : (chunk.take 9).length = 9 := by simp [h]
  have l2 : (chunk.drop 9).length = 10 := by simp [h]
  have b1 := fieldValue_lt (chunk.take 9); rw [l1] at b1
  have b2 := fieldValue_lt (chunk.drop 9); rw [l2] at b2
  have e1 := natBits_fieldValue (chunk.take 9); rw [l1] at e1
  have e2 := natBits_fieldValue (chunk.drop 9); rw [l2] at e2
  simp only [BitVec.toNat_ofNat]
  rw [Nat.mod_eq_of_lt b1, Nat.mod_eq_of_lt b2, e1, e2, List.take_append_drop]

/-- A value read back from its own bits. -/
theorem valueOfBits_valueBitsOf (v : ValueField) (rest : BitStream) :
    BitVec.ofNat 9 (fieldValue ((valueBitsOf v ++ rest).take 9)) = v := by
  rw [List.take_left' (by simp), valueBitsOf, fieldValue_toNat]; simp

/-- The bits of a value read from 9 bits are those bits. -/
theorem valueBitsOf_ofBits (chunk : BitStream) (h : chunk.length = 9) :
    valueBitsOf (BitVec.ofNat 9 (fieldValue chunk)) = chunk := by
  have b := fieldValue_lt chunk; rw [h] at b
  have e := natBits_fieldValue chunk; rw [h] at e
  simp only [valueBitsOf, BitVec.toNat_ofNat]
  rw [Nat.mod_eq_of_lt b, e]

/-- The frame decoder on a stream that starts with a mode flag (R62). -/
theorem decodeStream_true (bits : BitStream) : decodeStream (true :: bits) =
    .ok (.groupedFrame (splitPairs bits.length bits).1 (splitPairs bits.length bits).2) := rfl

theorem decodeStream_false (bits : BitStream) : decodeStream (false :: bits) =
    .ok (.rawFrame (splitValues bits.length bits).1 (splitValues bits.length bits).2) := rfl

/-- One turn of each loop, with R5's numbers in place of their names. -/
theorem splitPairs_succ (fuel : Nat) (bits : BitStream) : splitPairs (fuel + 1) bits =
    if 19 ≤ bits.length then
      (pairOfBits bits :: (splitPairs fuel (bits.drop 19)).1, (splitPairs fuel (bits.drop 19)).2)
    else ([], bits) := rfl

theorem splitValues_succ (fuel : Nat) (bits : BitStream) : splitValues (fuel + 1) bits =
    if 9 ≤ bits.length then
      (BitVec.ofNat 9 (fieldValue (bits.take 9)) :: (splitValues fuel (bits.drop 9)).1,
        (splitValues fuel (bits.drop 9)).2)
    else ([], bits) := rfl

theorem readPairs_succ (bits : BitStream) (fuel pos : Nat) (out : List Nat) : readPairs bits (fuel + 1) pos out =
    if pos + 19 ≤ bits.length then
      readPairs bits fuel (pos + 19) (out ++ List.replicate (readField bits (pos + 9) 10) (readField bits pos 9))
    else (pos, out) := rfl

theorem readValues_succ (bits : BitStream) (fuel pos : Nat) (out : List Nat) : readValues bits (fuel + 1) pos out =
    if pos + 9 ≤ bits.length then readValues bits fuel (pos + 9) (out ++ [readField bits pos 9]) else (pos, out) := rfl

/-- Splitting whole pairs and a remainder gives them back (R63, R69). -/
theorem splitPairs_layout (ps : List (ValueField × CountField)) (tail : BitStream) (ht : tail.length < 19) (fuel : Nat)
    (hf : ps.length ≤ fuel) : splitPairs fuel (ps.flatMap pairBits ++ tail) = (ps, tail) := by
  induction ps generalizing fuel with
  | nil =>
    cases fuel with
    | zero => rfl
    | succ n =>
      rw [splitPairs_succ, if_neg (by simpa using ht)]; rfl
  | cons p ps ih =>
    obtain ⟨n, rfl⟩ : ∃ n, fuel = n + 1 := ⟨fuel - 1, by simp at hf; omega⟩
    have hd : ((p :: ps).flatMap pairBits ++ tail).drop 19 = ps.flatMap pairBits ++ tail := by
      rw [List.flatMap_cons, List.append_assoc]; exact List.drop_left' (by simp)
    have hp : pairOfBits ((p :: ps).flatMap pairBits ++ tail) = p := by
      rw [List.flatMap_cons, List.append_assoc]; exact pairOfBits_pairBits _ _
    rw [splitPairs_succ, if_pos (by simp), hd, hp,
      ih n (by simpa using hf)]

/-- Every stream is whole pairs and a remainder too short for another. -/
theorem splitPairs_complete (fuel : Nat) (bits : BitStream) (hf : bits.length < 19 * (fuel + 1)) :
    (splitPairs fuel bits).1.flatMap pairBits ++ (splitPairs fuel bits).2 = bits ∧
      (splitPairs fuel bits).2.length < 19 := by
  induction fuel generalizing bits with
  | zero => simpa [splitPairs] using hf
  | succ n ih =>
    rw [splitPairs_succ]
    by_cases h : 19 ≤ bits.length
    · rw [if_pos h]
      obtain ⟨h1, h2⟩ := ih (bits.drop 19) (by simp; omega)
      refine ⟨?_, h2⟩
      have hc : pairBits (pairOfBits bits) = bits.take 19 := by
        have := pairBits_pairOfBits (bits.take 19) (bits.drop 19) (by simp; omega)
        rwa [List.take_append_drop] at this
      simp only [List.flatMap_cons, List.append_assoc]
      rw [h1, hc, List.take_append_drop]
    · rw [if_neg h]; simpa using Nat.lt_of_not_le h

/-- Splitting whole values and a remainder gives them back (R64, R69). -/
theorem splitValues_layout (vs : List ValueField) (tail : BitStream) (ht : tail.length < 9) (fuel : Nat)
    (hf : vs.length ≤ fuel) : splitValues fuel (vs.flatMap valueBitsOf ++ tail) = (vs, tail) := by
  induction vs generalizing fuel with
  | nil =>
    cases fuel with
    | zero => rfl
    | succ n => rw [splitValues_succ, if_neg (by simpa using ht)]; rfl
  | cons v vs ih =>
    obtain ⟨n, rfl⟩ : ∃ n, fuel = n + 1 := ⟨fuel - 1, by simp at hf; omega⟩
    have hd : ((v :: vs).flatMap valueBitsOf ++ tail).drop 9 = vs.flatMap valueBitsOf ++ tail := by
      rw [List.flatMap_cons, List.append_assoc]; exact List.drop_left' (by simp)
    have hv := valueOfBits_valueBitsOf v (vs.flatMap valueBitsOf ++ tail)
    rw [← List.append_assoc, ← List.flatMap_cons] at hv
    rw [splitValues_succ, if_pos (by simp), hd, hv, ih n (by simpa using hf)]

/-- Every stream is whole values and a remainder too short for another. -/
theorem splitValues_complete (fuel : Nat) (bits : BitStream) (hf : bits.length < 9 * (fuel + 1)) :
    (splitValues fuel bits).1.flatMap valueBitsOf ++ (splitValues fuel bits).2 = bits ∧
      (splitValues fuel bits).2.length < 9 := by
  induction fuel generalizing bits with
  | zero => simpa [splitValues] using hf
  | succ n ih =>
    rw [splitValues_succ]
    by_cases h : 9 ≤ bits.length
    · rw [if_pos h]
      obtain ⟨h1, h2⟩ := ih (bits.drop 9) (by simp; omega)
      refine ⟨?_, h2⟩
      simp only [List.flatMap_cons, List.append_assoc]
      rw [h1, valueBitsOf_ofBits (bits.take 9) (by simp; omega), List.take_append_drop]
    · rw [if_neg h]; simpa using Nat.lt_of_not_le h

/-- The grouped loop of R143 on what is left of a stream laid out as pairs and a remainder. -/
theorem readPairs_layout (before : BitStream) (ps : List (ValueField × CountField)) (tail : BitStream)
    (ht : tail.length < 19) (fuel : Nat) (hf : ps.length ≤ fuel) (out : List Nat) :
    readPairs (before ++ ps.flatMap pairBits ++ tail) fuel before.length out =
      (before.length + 19 * ps.length, out ++ ps.flatMap fun p => List.replicate p.2.toNat p.1.toNat) := by
  induction ps generalizing before fuel out with
  | nil =>
    cases fuel with
    | zero => simp [readPairs]
    | succ n =>
      rw [readPairs_succ, if_neg (by simp; omega)]; simp
  | cons p ps ih =>
    obtain ⟨n, rfl⟩ : ∃ n, fuel = n + 1 := ⟨fuel - 1, by simp at hf; omega⟩
    have hv : readField (before ++ (p :: ps).flatMap pairBits ++ tail) before.length 9 = p.1.toNat := by
      have := readField_append before (natBits Config.valueBits p.1.toNat)
        (natBits Config.countBits p.2.toNat ++ (ps.flatMap pairBits ++ tail))
      rw [natBits_length, fieldValue_toNat] at this
      rw [← this]; simp [pairBits]
    have hc : readField (before ++ (p :: ps).flatMap pairBits ++ tail) (before.length + 9) 10 = p.2.toNat := by
      have := readField_append (before ++ natBits Config.valueBits p.1.toNat) (natBits Config.countBits p.2.toNat)
        (ps.flatMap pairBits ++ tail)
      rw [natBits_length, fieldValue_toNat, List.length_append, natBits_length] at this
      rw [← this]; simp [pairBits]
    have hs : before ++ (p :: ps).flatMap pairBits ++ tail = (before ++ pairBits p) ++ ps.flatMap pairBits ++ tail := by
      simp
    have hl : (before ++ pairBits p).length = before.length + 19 := by simp
    rw [readPairs_succ, if_pos (by simp), hv, hc, hs, ← hl,
      ih _ n (by simpa using hf)]
    simp only [List.length_append, pairBits_length, List.length_cons, List.flatMap_cons, List.append_assoc]
    congr 1
    omega

/-- The raw loop of R143 on what is left of a stream laid out as values and a remainder. -/
theorem readValues_layout (before : BitStream) (vs : List ValueField) (tail : BitStream) (ht : tail.length < 9)
    (fuel : Nat) (hf : vs.length ≤ fuel) (out : List Nat) :
    readValues (before ++ vs.flatMap valueBitsOf ++ tail) fuel before.length out =
      (before.length + 9 * vs.length, out ++ vs.map fun v => v.toNat) := by
  induction vs generalizing before fuel out with
  | nil =>
    cases fuel with
    | zero => simp [readValues]
    | succ n => rw [readValues_succ, if_neg (by simp; omega)]; simp
  | cons v vs ih =>
    obtain ⟨n, rfl⟩ : ∃ n, fuel = n + 1 := ⟨fuel - 1, by simp at hf; omega⟩
    have hv : readField (before ++ (v :: vs).flatMap valueBitsOf ++ tail) before.length 9 = v.toNat := by
      have := readField_append before (natBits Config.valueBits v.toNat) (vs.flatMap valueBitsOf ++ tail)
      rw [natBits_length, fieldValue_toNat] at this
      rw [← this]; simp [valueBitsOf]
    have hs : before ++ (v :: vs).flatMap valueBitsOf ++ tail =
        (before ++ valueBitsOf v) ++ vs.flatMap valueBitsOf ++ tail := by simp
    have hl : (before ++ valueBitsOf v).length = before.length + 9 := by simp
    rw [readValues_succ, if_pos (by simp), hv, hs, ← hl, ih _ n (by simpa using hf)]
    simp only [List.length_append, valueBitsOf_length, List.length_cons, List.map_cons, List.append_assoc,
      List.singleton_append]
    congr 1
    omega

/-- A frame's stream bits, with the mode flag as its first bit. -/
theorem frameBits_grouped (ps : List (ValueField × CountField)) (tail : BitStream) :
    frameBits (.groupedFrame ps tail) = true :: (ps.flatMap pairBits ++ tail) := by
  simp only [frameBits, Config.flagGrouped, natBits]
  rfl

theorem frameBits_raw (vs : List ValueField) (tail : BitStream) :
    frameBits (.rawFrame vs tail) = false :: (vs.flatMap valueBitsOf ++ tail) := by
  simp only [frameBits, Config.flagRaw, natBits]
  rfl

/-- The two checks of WellFormed, as numbers (R69). -/
theorem wf_grouped_iff (ps : List (ValueField × CountField)) (tail : BitStream) :
    (Instr.groupedFrame ps tail).wf = true ↔ tail.length < 19 ∧ (1 + 19 * ps.length + tail.length) % 8 = 0 := by
  simp [Instr.wf, groupedBits, Config.groupedCost, Config.valueBits, Config.countBits, Config.flagBits, Config.byteBits]

theorem wf_raw_iff (vs : List ValueField) (tail : BitStream) :
    (Instr.rawFrame vs tail).wf = true ↔ tail.length < 9 ∧ (1 + 9 * vs.length + tail.length) % 8 = 0 := by
  simp [Instr.wf, rawBits, Config.rawCost, Config.valueBits, Config.flagBits, Config.byteBits]

end Sys2Proof.Machine
end

