-- ==== Sys2Proof/Laws/State.lean ====
section
/-! SUPPORT. One lemma per field per named update of the state, each true by unfolding the update once; and what the shared
ending of a command can answer. -/

namespace Sys2Proof.Machine

section Fields
variable (s : State) (r : Res) (op : BitVec 1) (out : Output) (e : Err)

@[simp] theorem State.endWith_cfg : (s.endWith r).cfg = s.cfg := rfl
@[simp] theorem State.endWith_res : (s.endWith r).res = r := rfl
@[simp] theorem State.endWith_inProgress : (s.endWith r).inProgress = none := rfl
@[simp] theorem State.endWith_host : (s.endWith r).host = s.host := rfl
@[simp] theorem State.endWith_lastRead : (s.endWith r).lastRead = s.lastRead := rfl

@[simp] theorem State.assertReset_cfg : s.assertReset.cfg = s.cfg := rfl
@[simp] theorem State.assertReset_res : s.assertReset.res = Res.reset := rfl
@[simp] theorem State.assertReset_inProgress : s.assertReset.inProgress = none := rfl
@[simp] theorem State.assertReset_host : s.assertReset.host = s.host := rfl
@[simp] theorem State.assertReset_lastRead : s.assertReset.lastRead = s.lastRead := rfl

@[simp] theorem Res.reset_valid : Res.reset.valid = false := rfl
@[simp] theorem Res.success_valid : (Res.success op out).valid = true := rfl
@[simp] theorem Res.success_op : (Res.success op out).op = op := rfl
@[simp] theorem Res.success_status : (Res.success op out).status = 0 := rfl
@[simp] theorem Res.success_info : (Res.success op out).info = .none := rfl
@[simp] theorem Res.success_out : (Res.success op out).out = out := rfl
@[simp] theorem Res.failure_valid : (Res.failure op e).valid = true := rfl
@[simp] theorem Res.failure_op : (Res.failure op e).op = op := rfl
@[simp] theorem Res.failure_status : (Res.failure op e).status = e.status.code := rfl
@[simp] theorem Res.failure_info : (Res.failure op e).info = e.info := rfl
@[simp] theorem Res.failure_out : (Res.failure op e).out = emptyOutput op := rfl

end Fields

/-- The six names and their codes (R181). -/
@[simp] theorem Status.ofCode_code (c : Status) : Status.ofCode c.code = some c := by
  cases c <;> decide

/-- A code has a name exactly when it is not 6 or 7 (R181). -/
theorem Status.ofCode_isSome (c : BitVec 3) : (Status.ofCode c).isSome = decide (c.toNat ≤ 5) := by
  revert c; decide

/-- All that the end of a command can answer: success, an error, or a fault of the model; in the two next states only `RES`
and the command in progress change. -/
theorem State.endCommand_eq (s : State) (op : BitVec 1) (r : UnitResult Output) :
    (∃ out, r = .ok out ∧ s.endCommand op r = .next (s.endWith (.success op out))) ∨
    (∃ e, r = .error (.raised e) ∧ s.endCommand op r = .next (s.endWith (.failure op e))) ∨
    (∃ f, r = .error (.modelFault f) ∧ s.endCommand op r = .fault f) := by
  rcases r with (e | f) | out
  · exact .inr (.inl ⟨e, rfl, rfl⟩)
  · exact .inr (.inr ⟨f, rfl, rfl⟩)
  · exact .inl ⟨out, rfl, rfl⟩

/-- A next state that the end of a command answers is its ending with some result of that OP. -/
theorem State.endCommand_next {s t : State} {op : BitVec 1} {r : UnitResult Output} (h : s.endCommand op r = .next t) :
    ∃ res : Res, t = s.endWith res ∧ res.valid = true ∧ res.op = op := by
  rcases s.endCommand_eq op r with ⟨out, -, h'⟩ | ⟨e, -, h'⟩ | ⟨f, -, h'⟩ <;> rw [h'] at h
  · cases h; exact ⟨_, rfl, rfl, rfl⟩
  · cases h; exact ⟨_, rfl, rfl, rfl⟩
  · cases h

end Sys2Proof.Machine
end

