-- ==== Sys2Proof/Laws/Commands.lean ====
section
/-! SUPPORT. All that the two commands' units can answer together: FIELD_DECODE on a stream laid out as a frame, and the four
ways an ENCODE ends (44_commands.md R160, 60_exceptions.md R188(a)). -/

namespace Sys2Proof.Machine

open Sys2Proof

/-- FIELD_DECODE of a grouped frame's stream (R143): its pairs, then TRAILING on its tail. -/
theorem fieldDecode_grouped (cfg : Config.Cfg) (ps : List (ValueField × CountField)) (tail : BitStream)
    (ht : tail.length < 19) :
    fieldDecode cfg (frameBits (.groupedFrame ps tail)) =
      (trailing cfg (1 + 19 * ps.length + tail.length) (1 + 19 * ps.length) tail .grouped
        (ps.flatMap fun p => List.replicate p.2.toNat p.1.toNat)).map
        fun out => { mode := .grouped, pos := 1 + 19 * ps.length, out := out } := by
  have hr := readPairs_layout [true] ps tail ht (frameBits (.groupedFrame ps tail)).length
    (by rw [frameBits_grouped]; simp; omega) []
  have hlen : (frameBits (.groupedFrame ps tail)).length = 1 + 19 * ps.length + tail.length := by
    rw [frameBits_grouped]; simp; omega
  have hdrop : (frameBits (.groupedFrame ps tail)).drop (1 + 19 * ps.length) = tail := by
    rw [frameBits_grouped, ← List.cons_append]; exact List.drop_left' (by simp; omega)
  have hb : [true] ++ ps.flatMap pairBits ++ tail = frameBits (.groupedFrame ps tail) := by
    rw [frameBits_grouped]; simp
  rw [hb] at hr
  simp only [List.length_singleton, List.nil_append] at hr
  generalize hx : frameBits (.groupedFrame ps tail) = bits at hr hlen hdrop
  rw [frameBits_grouped] at hx
  subst hx
  rw [hlen] at hr
  simp only [fieldDecode, streamMode_true, Config.flagBits, hr, hlen, hdrop, trailingPos_grouped]
  cases trailing cfg (1 + 19 * ps.length + tail.length) (1 + 19 * ps.length) tail .grouped
    (ps.flatMap fun p => List.replicate p.2.toNat p.1.toNat) <;> rfl

/-- FIELD_DECODE of a raw frame's stream (R143): its values, then TRAILING on its tail. -/
theorem fieldDecode_raw (cfg : Config.Cfg) (vs : List ValueField) (tail : BitStream) (ht : tail.length < 9) :
    fieldDecode cfg (frameBits (.rawFrame vs tail)) =
      (trailing cfg (1 + 9 * vs.length + tail.length) (1 + 9 * vs.length) tail .raw (vs.map fun v => v.toNat)).map
        fun out =>
          { mode := .raw
            pos := trailingPos cfg (1 + 9 * vs.length + tail.length) (1 + 9 * vs.length) tail .raw, out := out } := by
  have hr := readValues_layout [false] vs tail ht (frameBits (.rawFrame vs tail)).length
    (by rw [frameBits_raw]; simp; omega) []
  have hlen : (frameBits (.rawFrame vs tail)).length = 1 + 9 * vs.length + tail.length := by
    rw [frameBits_raw]; simp; omega
  have hdrop : (frameBits (.rawFrame vs tail)).drop (1 + 9 * vs.length) = tail := by
    rw [frameBits_raw, ← List.cons_append]; exact List.drop_left' (by simp; omega)
  have hb : [false] ++ vs.flatMap valueBitsOf ++ tail = frameBits (.rawFrame vs tail) := by
    rw [frameBits_raw]; simp
  rw [hb] at hr
  simp only [List.length_singleton, List.nil_append] at hr
  generalize hx : frameBits (.rawFrame vs tail) = bits at hr hlen hdrop
  rw [frameBits_raw] at hx
  subst hx
  rw [hlen] at hr
  simp only [fieldDecode, streamMode_false, Config.flagBits, hr, hlen, hdrop]
  cases trailing cfg (1 + 9 * vs.length + tail.length) (1 + 9 * vs.length) tail .raw (vs.map fun v => v.toNat) <;> rfl

/-- The two ways a frame's TRAILING and trim end (R144 to R146). -/
theorem finishFrame_cases (cfg : Config.Cfg) (len : Nat) (tail : BitStream) (mode : Mode) (out : List Nat) :
    (∃ r, finishFrame cfg len tail mode out = .ok (.naturals (trimZeros r)) ∧
      trailing cfg len (len - tail.length) tail mode out = .ok r) ∨
    (finishFrame cfg len tail mode out = .error (.raised (.truncatedStream len (len - tail.length))) ∧
      trailing cfg len (len - tail.length) tail mode out = .error (.raised (.truncatedStream len (len - tail.length)))) := by
  unfold finishFrame
  have h : (∃ r, trailing cfg len (len - tail.length) tail mode out = .ok r) ∨
      trailing cfg len (len - tail.length) tail mode out =
        .error (.raised (.truncatedStream len (len - tail.length))) := by
    unfold trailing
    cases cfg.decodePolicy with
    | reference => exact .inl ⟨_, rfl⟩
    | strict =>
      by_cases hv : tail.length < 8 ∧ ∀ b ∈ tail, b = false
      · exact .inl ⟨out, by rw [trailingStrict_valid _ _ _ hv]; rfl⟩
      · exact .inr (by rw [trailingStrict_invalid _ _ _ hv]; rfl)
  rcases h with ⟨r, hr⟩ | hr
  · exact .inl ⟨r, by rw [hr]; rfl, hr⟩
  · exact .inr ⟨by rw [hr]; rfl, hr⟩

/-- The capacity check, both ways (R187). -/
theorem checkCapacity_fits {limit : Option Nat} {n : Nat} (h : Fits limit n) : checkCapacity limit n = .ok () := by
  cases limit with
  | none => rfl
  | some m => exact if_neg (not_lt.mpr (h m rfl))

theorem checkCapacity_exceeded {m n : Nat} (h : m < n) : checkCapacity (some m) n = .error (.raised (.capacity m)) :=
  if_pos h

theorem fits_or_exceeded (limit : Option Nat) (n : Nat) : Fits limit n ∨ ∃ m, limit = some m ∧ m < n := by
  cases limit with
  | none => exact .inl (by simp [Fits])
  | some m =>
    rcases Nat.lt_or_ge m n with h | h
    · exact .inr ⟨m, rfl, h⟩
    · exact .inl fun k hk => by cases hk; exact h

/-- Where the units of a command answer, the command answers that. -/
theorem exec_encode_of_work {s : State} {input : List Int} {out : Output}
    (h : ((encodeWork s.cfg input).map fun w => Output.octets w.t) = .ok out) :
    exec (.encode input) s = .next (s.endWith (.success 0 out)) := by
  simp only [exec, execEncode, h]; rfl

theorem exec_decode_of_work {s : State} {token : List Byte} {out : Output}
    (h : ((decodeWork s.cfg token).map fun w => Output.naturals w.out) = .ok out) :
    exec (.decode token) s = .next (s.endWith (.success 1 out)) := by
  simp only [exec, execDecode, h]; rfl

/-- After capacity and B64_DECODE, a DECODE is FIELD_DECODE of the payload's bits, trimmed (R161). -/
theorem decodeWork_payload {cfg : Config.Cfg} {token p : List Byte} (hf : Fits cfg.maxTokenLen token.length)
    (hp : b64Decode cfg token = .ok p) :
    ((decodeWork cfg token).map fun w => Output.naturals w.out) =
      (fieldDecode cfg (bitUnpack p)).map fun f => Output.naturals (trimZeros f.out) := by
  simp only [decodeWork, checkCapacity_fits hf, hp, bind, Except.bind]
  cases fieldDecode cfg (bitUnpack p) <;> rfl

/-- The stream FIELD_ENCODE writes for a legal input, by mode (R63, R64). -/
def streamOf (input : List Int) : BitStream :=
  match modeSelect (tableOf input).length input.length with
  | .grouped => true :: (tableOf input).flatMap entryBits
  | .raw => false :: input.flatMap fun x => natBits Config.valueBits x.toNat

/-- The working state of an ENCODE of a legal input whose counts pass (R24). -/
def encodedWork (input : List Int) : EncodeWork where
  input := input
  ft := tableOf input
  d := (tableOf input).length
  n := input.length
  mode := modeSelect (tableOf input).length input.length
  bs := streamOf input
  p := bitPack (streamOf input)
  t := b64Encode (bitPack (streamOf input))

theorem tableOf_legal (input : List Int) (h : ∀ x ∈ input, legalValue x = true) :
    ∀ e ∈ tableOf input, legalValue e.value = true := by
  intro e he
  obtain ⟨v, hv, rfl⟩ := List.mem_map.mp he
  exact h v (List.mem_eraseDups.mp hv)

/-- Every way the units of an ENCODE end together, in the order of R188(a). -/
theorem encodeWork_cases (cfg : Config.Cfg) (input : List Int) :
    (∃ m, cfg.maxInputLen = some m ∧ m < input.length ∧ encodeWork cfg input = .error (.raised (.capacity m))) ∨
    (Fits cfg.maxInputLen input.length ∧
      ((∃ before x after, input = before ++ x :: after ∧ (∀ y ∈ before, legalValue y = true) ∧ legalValue x = false ∧
          encodeWork cfg input = .error (.raised (.domainRange x))) ∨
       ((∀ x ∈ input, legalValue x = true) ∧
          ((∃ e, cfg.countOverflowPolicy = .reject ∧ modeSelect (tableOf input).length input.length = .grouped ∧
              (tableOf input).find? (fun e => decide (1024 ≤ e.count)) = some e ∧
              encodeWork cfg input = .error (.raised (.countOverflow e.value e.count))) ∨
           ((modeSelect (tableOf input).length input.length = .raw ∨ cfg.countOverflowPolicy = .wrap ∨
              ∀ e ∈ tableOf input, e.count ≤ 1023) ∧
              encodeWork cfg input = .ok (encodedWork input)))))) := by
  rcases fits_or_exceeded cfg.maxInputLen input.length with hf | ⟨m, hm, hlt⟩
  · refine .inr ⟨hf, ?_⟩
    have hcap := checkCapacity_fits hf
    rcases legal_or_first_illegal input with h | ⟨before, x, after, hin, hb, hx⟩
    · refine .inr ⟨h, ?_⟩
      have hft := freqCount_legal input h
      cases hmode : modeSelect (tableOf input).length input.length with
      | raw =>
        refine .inr ⟨.inl rfl, ?_⟩
        simp only [encodeWork, hcap, hft, bind, Except.bind, hmode, fieldEncode_raw cfg input (tableOf input) h,
          encodedWork, streamOf]
        rfl
      | grouped =>
        rcases checkCounts_cases cfg.countOverflowPolicy (tableOf input) with ⟨hc, hw⟩ | ⟨e, hr, hfind, hc⟩
        · refine .inr ⟨.inr hw, ?_⟩
          simp only [encodeWork, hcap, hft, bind, Except.bind, hmode,
            fieldEncode_grouped cfg input (tableOf input) hc (tableOf_legal input h), encodedWork, streamOf]
          rfl
        · refine .inl ⟨e, hr, rfl, hfind, ?_⟩
          simp only [encodeWork, hcap, hft, bind, Except.bind, hmode, fieldEncode, emit_flag, hc]
    · refine .inl ⟨before, x, after, hin, hb, hx, ?_⟩
      have hft : freqCount input = .error (.raised (.domainRange x)) := by
        rw [hin]; exact freqCount_illegal before after x hb hx []
      simp only [encodeWork, hcap, hft, bind, Except.bind]
  · refine .inl ⟨m, hm, hlt, ?_⟩
    simp only [encodeWork, hm, checkCapacity_exceeded hlt, bind, Except.bind]

end Sys2Proof.Machine
end

