-- ==== Sys2Proof/Laws/PerInstr.lean ====
section
/-! SUPPORT. Per-instruction statements. Family OpcodeBits: the code of a well-formed instruction carries the opcode bits that
spec/opcode_table.json gives its row (its `match` under its `mask`), at the row's own level (30_encoding.md R73). -/

namespace Sys2Proof.Laws.OpcodeBits

open Sys2Proof Sys2Proof.Machine

/-- A code's opcode bits under a row's mask: OP for a command, byte 0 for a payload. -/
def masked (mask : Nat) : Code → Option Nat
  | .command c => some (c.op.toNat &&& mask)
  | .payload bytes => bytes.head?.map fun b => b.toNat &&& mask

/-- The table's `mask` and `match` of an instruction's row. -/
def row : Instr → Nat × Nat
  | .encode _ => (0b1, 0b0)
  | .decode _ => (0b1, 0b1)
  | .groupedFrame _ _ => (0x80, 0x80)
  | .rawFrame _ _ => (0x80, 0x00)

/-- The family's statement. -/
def Statement (i : Instr) : Prop := i.wf = true → masked (row i).1 (encode i) = some (row i).2

theorem flagByte (flag : Bool) (rest : BitStream) (h : (flag :: rest).length % 8 = 0) :
    masked 0x80 (.payload (packBytes (flag :: rest))) = some (if flag then 0x80 else 0x00) := by
  rcases wholeBytes_cases _ h with h0 | ⟨chunk, more, he, hc, -, -⟩
  · cases h0
  · match chunk, hc with
    | [b7, b6, b5, b4, b3, b2, b1, b0], hc =>
      cases he
      have hp := packBytes_eight [flag, b6, b5, b4, b3, b2, b1, b0] more rfl
      simp only [List.cons_append, List.nil_append] at hp
      simp only [masked, List.append_eq, List.cons_append, List.nil_append, hp, List.head?_cons, Option.map_some,
        Option.some.injEq]
      clear h hc hp
      revert flag b6 b5 b4 b3 b2 b1 b0
      decide

theorem encode (values : List Int) : Statement (.encode values) := by
  intro; simp [masked, row, Sys2Proof.encode]

theorem decode (token : List Byte) : Statement (.decode token) := by
  intro; simp [masked, row, Sys2Proof.encode]

theorem groupedFrame (pairs : List (ValueField × CountField)) (tail : BitStream) :
    Statement (.groupedFrame pairs tail) := by
  intro h
  rw [wf_grouped_iff] at h
  have hb := frameBits_grouped pairs tail
  simp only [row, Sys2Proof.encode, hb]
  exact flagByte true _ (by simp; omega)

theorem rawFrame (values : List ValueField) (tail : BitStream) : Statement (.rawFrame values tail) := by
  intro h
  rw [wf_raw_iff] at h
  have hb := frameBits_raw values tail
  simp only [row, Sys2Proof.encode, hb]
  exact flagByte false _ (by simp; omega)

end Sys2Proof.Laws.OpcodeBits
end

