-- ==== Sys2Proof/Laws/Safety.lean ====
section
/-! SUPPORT. The words of Safety.lean with the numbers of 00_scope.md R5 in place of their names, as the rules write them. -/

namespace Sys2Proof.Machine

theorem allLegal_iff (input : List Int) : AllLegal input ↔ ∀ x ∈ input, 1 ≤ x ∧ x ≤ 300 := Iff.rfl

theorem validPadding_iff (tail : BitStream) : ValidPadding tail ↔ tail.length < 8 ∧ ∀ b ∈ tail, b = false := Iff.rfl

theorem zeroPad_eq (len : Nat) : zeroPad len = List.replicate ((8 - len % 8) % 8) false := rfl

theorem frameFor_eq (input : List Int) : frameFor input =
    if distinctCount input * 19 < input.length * 9 then
      .groupedFrame (input.eraseDups.map fun v => (BitVec.ofInt 9 v, BitVec.ofNat 10 (input.count v)))
        (zeroPad (1 + 19 * distinctCount input))
    else .rawFrame (input.map fun v => BitVec.ofInt 9 v) (zeroPad (1 + 9 * input.length)) := rfl

theorem decodedOf_eq (input : List Int) : decodedOf input =
    if distinctCount input * 19 < input.length * 9 then
      input.eraseDups.flatMap fun v => List.replicate (input.count v % 1024) v.toNat
    else input.map Int.toNat := rfl

end Sys2Proof.Machine
end

