-- ==== Sys2Proof/Tests/Slice0.lean ====
section
/-! SUPPORT. The model's own tests, with expected results from 95_test_vectors.md (S1 to S9, tables 2.1 to 2.7, Programs 1 to
6) and from the spec's encodings written out by hand; and for every statement that has hypotheses, states and operands that
meet them. -/

namespace Sys2Proof.Tests

open Sys2Proof Sys2Proof.Machine

/-! ### WellFormed: one ill-formed term for each check -/

theorem test_wf_accepts_frame : (Instr.groupedFrame [(1, 4)] (List.replicate 4 false)).wf = true := by decide
theorem test_wf_refuses_grouped_tail_of_19 : (Instr.groupedFrame [] (List.replicate 23 false)).wf = false := by decide
theorem test_wf_refuses_grouped_part_byte : (Instr.groupedFrame [(1, 4)] []).wf = false := by decide
theorem test_wf_refuses_raw_tail_of_9 : (Instr.rawFrame [] (List.replicate 15 false)).wf = false := by decide
theorem test_wf_refuses_raw_part_byte : (Instr.rawFrame [7] []).wf = false := by decide
theorem test_wf_refuses_encode_with_octets : (Command.mk 0 (.octets [])).wf = false := by decide
theorem test_wf_refuses_decode_with_ints : (Command.mk 1 (.ints [])).wf = false := by decide

/-! ### Decode and encode: words written out from 30_encoding.md R60, R63, R64 -/

/-- R60: OP = 0. -/
theorem test_decode_command_encode : decode (.command ⟨0b0, .ints [3, 1]⟩) = .ok (.encode [3, 1]) := by decide
/-- R60: OP = 1. -/
theorem test_decode_command_decode : decode (.command ⟨0b1, .octets [0x41]⟩) = .ok (.decode [0x41]) := by decide
/-- R60: the operand does not belong to the OP. -/
theorem test_decode_command_kind :
    decode (.command ⟨0b1, .ints []⟩) = .error (.operandKind 1) := by decide
/-- R63: flag 1, value 5 in 9 bits, count 3 in 10 bits, four zero bits. -/
theorem test_decode_grouped_word :
    decode (.payload [0b10000001, 0b01000000, 0b00110000]) =
      .ok (.groupedFrame [(5, 3)] [false, false, false, false]) := by decide
/-- R64: flag 0, value 7 in 9 bits, six zero bits. -/
theorem test_decode_raw_word :
    decode (.payload [0b00000001, 0b11000000]) =
      .ok (.rawFrame [7] [false, false, false, false, false, false]) := by decide
/-- R70: no byte, no mode flag. -/
theorem test_decode_empty_payload : decode (.payload []) = .error .emptyPayload := by decide
/-- R63 and S1: the frame of the source's worked example has the bytes 80 40 40. -/
theorem test_encode_grouped_bytes :
    encode (.groupedFrame [(1, 4)] [false, false, false, false]) = .payload [0x80, 0x40, 0x40] := by decide
/-- The table's rows, as the table numbers their words. -/
theorem test_table_words :
    decodeTableWord 8 0x00 = some (.encode []) ∧ decodeTableWord 8 0x01 = some (.decode []) ∧
    decodeTableWord 8 0x80 = some (.groupedFrame [] (List.replicate 7 false)) ∧
    decodeTableWord 16 0x0000 = some (.rawFrame [0] (List.replicate 6 false)) := by decide

/-! ### Units: 95_test_vectors.md, tables 2.1 to 2.6 -/

theorem test_freq_count : freqCount [3, 1, 4, 1, 5] = .ok [⟨3, 1⟩, ⟨1, 2⟩, ⟨4, 1⟩, ⟨5, 1⟩] := by decide
theorem test_freq_count_first_offender : freqCount [5, 0, 400] = .error (.raised (.domainRange 0)) := by decide
theorem test_freq_count_bounds : freqCount [1, 300] = .ok [⟨1, 1⟩, ⟨300, 1⟩] := by decide
theorem test_mode_tie : modeSelect 9 19 = .raw ∧ modeSelect 9 20 = .grouped ∧ modeSelect 300 633 = .raw ∧
    modeSelect 300 634 = .grouped := by decide
theorem test_pack_no_padding : bitPack (false :: [1, 2, 3, 4, 5, 6, 7].flatMap (natBits 9)) =
    [0x00, 0x40, 0x40, 0x30, 0x20, 0x14, 0x0C, 0x07] := by decide +kernel
theorem test_b64_slash : b64Encode [0xCB, 0x3F, 0xF0] = [0x79, 0x7A, 0x2F, 0x77] := by decide
/-- `"AB=="`, `"AAB="`, `"A==="`, `"AA=A"`, `"gE A"`. -/
theorem test_not_canonical :
    canonical [0x41, 0x42, 0x3D, 0x3D] = false ∧ canonical [0x41, 0x41, 0x42, 0x3D] = false ∧
    canonical [0x41, 0x3D, 0x3D, 0x3D] = false ∧ canonical [0x41, 0x41, 0x3D, 0x41] = false ∧
    canonical [0x67, 0x45, 0x20, 0x41] = false := by decide
theorem test_trim : trimZeros [3, 1, 0, 0] = [3, 1] ∧ trimZeros [0, 5] = [0, 5] ∧ trimZeros [0] = [] := by decide

/-- R142, D20: no bit, a missing flag, raw mode. R145's example, the payload 00 FF: the cursor ends at `L = 16`. -/
theorem test_field_decode_reference :
    fieldDecode { decodePolicy := .reference } [] = .ok { mode := .raw, pos := 0, out := [] } ∧
    fieldDecode { decodePolicy := .reference } (bitUnpack [0x00, 0xFF]) =
      .ok { mode := .raw, pos := 16, out := [3, 504] } := by decide

/-! ### The four instructions, one step each -/

/-- Program 1: `ENCODE [1,1,1,1]` answers `"gEBA"`. -/
theorem test_encode_grouped :
    exec (.encode [1, 1, 1, 1]) State.reset =
      .next (State.reset.succeed 0 (.octets [0x67, 0x45, 0x42, 0x41])) :=
  exec_encode_of_work (by decide +kernel)

/-- Table 2.7: `ENCODE [300,1,300]` answers `"SwAywA=="`. -/
theorem test_encode_raw :
    exec (.encode [300, 1, 300]) State.reset =
      .next (State.reset.succeed 0 (.octets [0x53, 0x77, 0x41, 0x79, 0x77, 0x41, 0x3D, 0x3D])) :=
  exec_encode_of_work (by decide +kernel)

/-- Table 2.6: the payload 80 80 50 08 08 gives its pairs in order. -/
theorem test_decode_grouped :
    exec (.decode [0x67, 0x49, 0x42, 0x51, 0x43, 0x41, 0x67, 0x3D]) State.reset =
      .next (State.reset.succeed 1 (.naturals [2, 2, 2, 2, 2, 1, 1, 1, 1])) :=
  exec_decode_of_work (by decide +kernel)

/-- Table 2.6, column `Reference`: `"AP8="` gives `[3, 504]`. -/
theorem test_decode_reference_partial_field :
    exec (.decode [0x41, 0x50, 0x38, 0x3D]) (State.resetWith { decodePolicy := .reference }) =
      .next ((State.resetWith { decodePolicy := .reference }).succeed 1 (.naturals [3, 504])) :=
  exec_decode_of_work (by decide +kernel)

/-- Table 2.6, `"gAAw"`: three zeros, all trimmed. -/
theorem test_grouped_frame_trims :
    exec (.groupedFrame [(0, 3)] [false, false, false, false]) State.reset =
      .next (State.reset.succeed 1 (.naturals [])) := rfl

/-- Table 2.6, `"//8="`: a remainder of 15 bits. -/
theorem test_grouped_frame_truncated :
    exec (.groupedFrame [] (List.replicate 15 true)) State.reset =
      .next (State.reset.raiseError 1 (.truncatedStream 16 1)) := rfl

/-- Table 2.6, `"AACg"`: the inner 0 stays. -/
theorem test_raw_frame_inner_zero :
    exec (.rawFrame [0, 5] [false, false, false, false, false]) State.reset =
      .next (State.reset.succeed 1 (.naturals [0, 5])) := rfl

/-- Table 2.6, `"AMAgQAgV"` under `Reference`: the zero-filled value 128. -/
theorem test_raw_frame_reference :
    exec (.rawFrame [3, 1, 4, 1, 5] [false, true]) (State.resetWith { decodePolicy := .reference }) =
      .next ((State.resetWith { decodePolicy := .reference }).succeed 1 (.naturals [3, 1, 4, 1, 5, 128])) := rfl

/-- A grouped frame's word, placed by withFetchWord, runs on the next step as the frame's own meaning. -/
theorem test_step_runs_grouped_word :
    step (State.reset.withFetchWord 8 0x80) =
      exec (.groupedFrame [] (List.replicate 7 false)) (State.reset.withFetchWord 8 0x80) := by rfl

/-! ### Witnesses of the statements' hypotheses -/

/-- A state after a completed command, an ENCODE of `[7]` in progress. -/
def busyState : State :=
  { State.reset with res := Res.success 1 (.naturals [7]), inProgress := some ⟨0, .ints [7]⟩ }

theorem fits_none (n : Nat) : Fits none n := fun _ h => nomatch h

theorem fits_some {m n : Nat} (h : n ≤ m) : Fits (some m) n := fun _ hk => by cases hk; exact h

theorem witness_reset_in_progress :
    ∃ (s : State), ∃ rest, s.host = HostMove.reset :: rest ∧ s.inProgress ≠ none :=
  ⟨{ busyState with host := [.reset, .wait] }, [.wait], by decide⟩

theorem witness_idle_issue :
    ∃ (s : State), ∃ c rest, s.host = HostMove.issue c :: rest ∧ s.inProgress = none :=
  ⟨{ State.reset with host := [.issue ⟨0, .ints [7]⟩] }, ⟨0, .ints [7]⟩, [], by decide⟩

theorem witness_busy_issue :
    ∃ (s : State), ∃ c d rest, s.host = HostMove.issue c :: rest ∧ s.inProgress = some d :=
  ⟨{ busyState with host := [.issue ⟨1, .octets []⟩] }, ⟨1, .octets []⟩, ⟨0, .ints [7]⟩, [], by decide⟩

/-- The status at the edge of the codes the block writes: 5, the last of them. -/
theorem witness_read_valid :
    ∃ (s : State), ∃ rest, s.host = HostMove.readRes :: rest ∧ s.res.valid = true ∧ s.res.status.toNat = 5 :=
  ⟨{ busyState with res := Res.failure 0 (.capacity 2), host := [.readRes] }, [], by decide⟩

theorem witness_read_invalid : ∃ (s : State), ∃ rest, s.host = HostMove.readRes :: rest ∧ s.res.valid = false :=
  ⟨{ State.reset with host := [.readRes] }, [], by decide⟩

/-- The first reserved code, 6. -/
theorem witness_read_reserved :
    ∃ (s : State), ∃ rest, s.host = HostMove.readRes :: rest ∧ s.res.valid = true ∧ s.res.status.toNat = 6 :=
  ⟨{ busyState with res := { busyState.res with status := 6 }, host := [.readRes] }, [], by decide⟩

theorem witness_idle_quiet : State.reset.inProgress = none ∧ State.reset.host = [] := by decide

theorem witness_idle_wait : ∃ (s : State), ∃ rest, s.inProgress = none ∧ s.host = HostMove.wait :: rest :=
  ⟨{ State.reset with host := [.wait] }, [], by decide⟩

theorem witness_step_runs :
    ∃ (s : State), ∃ c i, s.inProgress = some c ∧ decodeCommand c = .ok i ∧ s.host = [] :=
  ⟨busyState, ⟨0, .ints [7]⟩, .encode [7], by decide⟩

theorem witness_step_runs_waiting :
    ∃ (s : State), ∃ c i, s.inProgress = some c ∧ decodeCommand c = .ok i ∧ s.host = [HostMove.wait] :=
  ⟨{ busyState with host := [.wait] }, ⟨0, .ints [7]⟩, .encode [7], by decide⟩

theorem witness_issue_and_wait :
    ∃ (s : State), ∃ c rest, s.host = HostMove.issue c :: .wait :: rest ∧ s.inProgress = none ∧ c.wf = true :=
  ⟨{ State.reset with host := [.issue ⟨1, .octets []⟩, .wait] }, ⟨1, .octets []⟩, [], by decide⟩

theorem witness_step_next : ∃ (s : State), ∃ t, step s = .next t ∧ s.wf = true :=
  ⟨State.reset, State.reset, rfl, by decide⟩

/-- A step that runs a command from a well-formed state. -/
theorem witness_step_next_busy : busyState.wf = true ∧ busyState.hostBreaksHandshake = false ∧
    ∃ t, step busyState = .next t :=
  ⟨by decide +kernel, by decide, _, exec_encode_of_work (s := busyState) (input := [7])
    (out := .octets [0x41, 0x63, 0x41, 0x3D]) (by decide +kernel)⟩

theorem witness_wf_frames :
    (Instr.groupedFrame [(1, 4)] (List.replicate 4 false)).wf = true ∧
    (Instr.groupedFrame [] (List.replicate 15 true)).wf = true ∧
    (Instr.rawFrame [] (List.replicate 7 false)).wf = true ∧
    (Instr.rawFrame [0, 0, 0, 0, 0, 0, 0] (List.replicate 8 false)).wf = true := by decide

theorem witness_payload : ([0x80] : List Byte) ≠ [] := by decide

/-- The last stream bit of a payload, and of a stream that ends inside a byte. -/
theorem witness_stream_bit :
    7 < 8 * ([0x01] : List Byte).length ∧ (bitUnpack [0x01])[7]? = some true ∧
    8 < (List.replicate 9 true).length ∧ ((bitPack (List.replicate 9 true))[1]?).map (·.toNat.testBit 7) = some true := by
  decide

theorem witness_canonical :
    canonical [0x67, 0x45, 0x42, 0x41] = true ∧ canonical [0x41, 0x41, 0x3D, 0x3D] = true ∧
    canonical [0x41, 0x63, 0x41, 0x3D] = true := by decide

/-- The ends of the alphabet. -/
theorem witness_alphabet : dec64 0x41 = some 0 ∧ dec64 0x2F = some 63 := by decide

theorem witness_legal_input : AllLegal [1, 300] := by unfold AllLegal; decide

/-- Both edges of what is illegal, 0 and 301, after legal elements. -/
theorem witness_first_illegal :
    AllLegal [5, 300] ∧ ¬ ((1 : Int) ≤ 0 ∧ (0 : Int) ≤ 300) ∧ ¬ ((1 : Int) ≤ 301 ∧ (301 : Int) ≤ 300) ∧
    Fits (some 4) ([5, 300] ++ 0 :: [400] : List Int).length :=
  ⟨by unfold AllLegal; decide, by decide, by decide, fits_some (by decide)⟩

theorem witness_freq_count : freqCount [2, 1, 2] = .ok [⟨2, 2⟩, ⟨1, 1⟩] := by decide

theorem witness_tie : 19 * 9 = 9 * 19 := by decide

/-- The three clauses on the modes: a raw input, one of 634 elements or more, and a count of 1024. -/
theorem witness_mode_thresholds :
    (freqCount [7] = .ok [⟨7, 1⟩] ∧ modeSelect 1 1 = .raw) ∧
    freqCount (List.replicate 1024 300) = .ok [⟨300, 1024⟩] ∧ 634 ≤ (List.replicate 1024 (300 : Int)).length ∧
    1024 ≤ (Entry.mk 300 1024).count := by decide +kernel

theorem witness_encode_work_grouped :
    ∃ w, encodeWork {} [5, 5, 5] = .ok w ∧ w.mode = .grouped := ⟨encodedWork [5, 5, 5], by decide +kernel⟩

theorem witness_encode_work_raw :
    ∃ w, encodeWork {} [7] = .ok w ∧ w.mode = .raw := ⟨encodedWork [7], by decide +kernel⟩

theorem witness_field_encode :
    (∃ bs, fieldEncode {} [] [⟨5, 1023⟩] .grouped = .ok bs) ∧ ∃ bs, fieldEncode {} [] [] .raw = .ok bs :=
  ⟨⟨true :: entryBits ⟨5, 1023⟩, by decide +kernel⟩, ⟨[false], by decide⟩⟩

/-- `Emit` at both edges of its precondition. -/
theorem witness_emit :
    (0 ≤ (511 : Int) ∧ (511 : Int) < 2 ^ 9) ∧ ¬ (0 ≤ (512 : Int) ∧ (512 : Int) < 2 ^ 9) ∧
    ¬ (0 ≤ (-1 : Int) ∧ (-1 : Int) < 2 ^ 9) := by decide

theorem witness_read_field : 511 < 2 ^ 9 ∧ 7 ≤ 9 ∧ 127 < 2 ^ 7 := by decide

/-- ENCODE under each policy; a count of 1024 under `Wrap`, of 1023 under `Reject`. -/
theorem witness_encode_answers :
    Fits State.reset.cfg.maxInputLen (List.replicate 1023 (300 : Int)).length ∧ AllLegal (List.replicate 1023 300) ∧
    State.reset.cfg.countOverflowPolicy = .reject ∧
    (∀ v ∈ List.replicate 1023 (300 : Int), (List.replicate 1023 (300 : Int)).count v ≤ 1023) ∧
    (List.replicate 1023 (300 : Int)).count 300 = 1023 :=
  ⟨fits_none _, fun x hx => by rw [List.eq_of_mem_replicate hx]; decide, rfl,
    fun v hv => by rw [List.eq_of_mem_replicate hv, List.count_replicate_self], List.count_replicate_self⟩

theorem witness_encode_wraps :
    AllLegal (List.replicate 1024 300) ∧
    (State.resetWith { countOverflowPolicy := .wrap }).cfg.countOverflowPolicy = .wrap :=
  ⟨fun x hx => by rw [List.eq_of_mem_replicate hx]; decide, rfl⟩

theorem witness_count_overflow :
    Fits State.reset.cfg.maxInputLen (List.replicate 1024 (300 : Int)).length ∧
    AllLegal (List.replicate 1024 300) ∧ State.reset.cfg.countOverflowPolicy = .reject ∧
    (List.replicate 1024 (300 : Int)).eraseDups.find?
      (fun v => decide (1024 ≤ (List.replicate 1024 (300 : Int)).count v)) = some 300 :=
  ⟨fits_none _, fun x hx => by rw [List.eq_of_mem_replicate hx]; decide, rfl, by decide +kernel⟩

theorem witness_capacity :
    (State.resetWith { maxInputLen := some 2 }).cfg.maxInputLen = some 2 ∧ 2 < ([1, 2, 3] : List Int).length ∧
    (State.resetWith { maxTokenLen := some 3 }).cfg.maxTokenLen = some 3 ∧
    3 < ([0x41, 0x45, 0x42, 0x41] : List Byte).length := by decide

/-- A finished ENCODE with a token, for the statements that start from one. -/
theorem witness_encoded :
    ∃ t, exec (.encode [5, 5, 5]) State.reset = .next t ∧ t.res.status = 0 ∧
      t.res.out = .octets [0x67, 0x55, 0x41, 0x77] ∧ AllLegal [5, 5, 5] ∧
      distinctCount [5, 5, 5] * 19 < [5, 5, 5].length * 9 :=
  ⟨_, exec_encode_of_work (s := State.reset) (input := [5, 5, 5]) (out := .octets [0x67, 0x55, 0x41, 0x77])
    (by decide +kernel), rfl, rfl, by unfold AllLegal; decide, by decide⟩

/-- The longest valid padding, 7 zero bits; and both ways of not being valid. -/
theorem witness_padding :
    ValidPadding (List.replicate 7 false) ∧ ¬ ValidPadding (List.replicate 8 false) ∧ ¬ ValidPadding [true] := by
  refine ⟨⟨by decide, by decide⟩, fun h => ?_, fun h => ?_⟩
  · exact absurd h.1 (by decide)
  · exact absurd (h.2 true (by simp)) (by decide)

theorem witness_policies :
    State.reset.cfg.decodePolicy = .strict ∧
    (State.resetWith { decodePolicy := .reference }).cfg.decodePolicy = .reference := by decide

/-- Four zero bits after one pair, six after one value; the token just as long as the limit. -/
theorem witness_decode_frame_token :
    (Instr.groupedFrame [(5, 3)] (List.replicate 4 false)).wf = true ∧
    (tokenOf (.groupedFrame [(5, 3)] (List.replicate 4 false))).length = 4 ∧ ValidPadding (List.replicate 4 false) ∧
    (Instr.rawFrame [7] (List.replicate 6 false)).wf = true ∧
    (tokenOf (.rawFrame [7] (List.replicate 6 false))).length = 4 ∧ ValidPadding (List.replicate 6 false) ∧
    Fits (State.resetWith { maxTokenLen := some 4 }).cfg.maxTokenLen 4 :=
  ⟨by decide, by decide +kernel, ⟨by decide, by decide⟩, by decide, by decide +kernel, ⟨by decide, by decide⟩,
    fits_some (Nat.le_refl _)⟩

/-- Under `Reference`: the longest remainder a raw frame can have, 8 bits. -/
theorem witness_reference_remainder :
    (State.resetWith { decodePolicy := .reference }).cfg.decodePolicy = .reference ∧
    (List.replicate 8 true).length < 9 ∧ (Instr.rawFrame [0, 0, 0, 0, 0, 0, 0] (List.replicate 8 true)).wf = true := by
  decide

theorem witness_canonical_within_capacity :
    Fits State.reset.cfg.maxTokenLen 4 ∧ canonical [0x67, 0x45, 0x42, 0x41] = true ∧
    ([0x67, 0x45, 0x42, 0x41] : List Byte) ≠ [] :=
  ⟨fits_none _, by decide, by decide⟩

/-- `"gEB"` is not canonical. -/
theorem witness_not_canonical : canonical [0x67, 0x45, 0x42] = false ∧ Fits State.reset.cfg.maxTokenLen 3 :=
  ⟨by decide, fits_none _⟩

/-- `lenientB64` has no known value: one of the two clauses about it is met, and nothing says which. -/
theorem witness_lenient :
    (State.resetWith { decodePolicy := .reference }).cfg.decodePolicy = .reference ∧
    Fits (State.resetWith { decodePolicy := .reference }).cfg.maxTokenLen 3 ∧
    canonical [0x67, 0x45, 0x42] = false ∧
    (Config.lenientB64 [0x67, 0x45, 0x42] = [] ∨ Config.lenientB64 [0x67, 0x45, 0x42] ≠ []) :=
  ⟨rfl, fits_none _, by decide, Classical.em _⟩

/-- A grouped token with output. -/
theorem witness_grouped_output :
    canonical [0x67, 0x55, 0x41, 0x77] = true ∧
    (strictBytes [0x67, 0x55, 0x41, 0x77]).head?.map (fun b => b.toNat.testBit 7) = some true ∧
    ∃ t, exec (.decode [0x67, 0x55, 0x41, 0x77]) State.reset = .next t ∧ t.res.out = .naturals [5, 5, 5] :=
  ⟨by decide, by decide, _, exec_decode_of_work (s := State.reset) (out := .naturals [5, 5, 5]) (by decide +kernel), rfl⟩

theorem witness_equal_configurations :
    State.reset.cfg = busyState.cfg ∧ ∃ t, exec (.groupedFrame [] (List.replicate 7 false)) State.reset = .next t :=
  ⟨by decide, _, rfl⟩

theorem witness_frame_in_progress :
    (Instr.rawFrame [7] (List.replicate 6 false)).wf = true ∧
    ∃ s : State, s.host = [] ∧ s.cfg.maxTokenLen = none ∧
      s.inProgress = some (commandFor (.rawFrame [7] (List.replicate 6 false))) :=
  ⟨by decide, { State.reset with inProgress := some (commandFor (.rawFrame [7] (List.replicate 6 false))) }, rfl, rfl,
    rfl⟩

end Sys2Proof.Tests
end

/-! SUPPORT. A frame through its token and back: the packer (43_unpack_field_decode.md R140) and the transcoder (42_base64.md
R123) undo each other, so that the DECODE of a well-formed frame's token runs that frame (00_scope.md R16). -/

namespace Sys2Proof.Machine

open Sys2Proof

/-- Unpacking undoes packing on a stream of whole bytes (R140). -/
theorem bitUnpack_packBytes (bs : BitStream) (h : bs.length % 8 = 0) : bitUnpack (packBytes bs) = bs := by
  induction hn : bs.length using Nat.strong_induction_on generalizing bs with
  | _ n ih =>
    rcases wholeBytes_cases bs h with rfl | ⟨chunk, rest, rfl, hc, hr, hlt⟩
    · rfl
    · have hchunk : natBits 8 (BitVec.ofNat 8 (fieldValue chunk)).toNat = chunk := by
        have hv := natBits_fieldValue chunk
        rw [hc] at hv
        rw [BitVec.toNat_ofNat, natBits_mod 8 _ 8 le_rfl, hv]
      rw [packBytes_eight _ _ hc, bitUnpack_cons, hchunk, ih rest.length (hn ▸ hlt) rest hr rfl]

/-- A quantum without pad characters, at the end of a token or not, leaves the rest to decide (R129). -/
theorem canonical_fullQuantum {c0 c1 c2 c3 : Byte} (h0 : inAlphabet c0 = true) (h1 : inAlphabet c1 = true)
    (h2 : inAlphabet c2 = true) (h3 : inAlphabet c3 = true) (rest : List Byte) :
    canonical (c0 :: c1 :: c2 :: c3 :: rest) = canonical rest := by
  cases rest with
  | nil => exact (lastQuantumOk_iff _ _ _ _).mpr ⟨h0, h1, .inl ((padCount_eq_zero _ _).mpr ⟨h2, h3⟩)⟩
  | cons c rest => simp [canonical, h0, h1, h2, h3]

/-- A quantum without pad characters, at the end of a token or not, gives its three bytes (R129). -/
theorem strictBytes_fullQuantum (c0 c1 : Byte) {c2 c3 : Byte} (h2 : inAlphabet c2 = true) (h3 : inAlphabet c3 = true)
    (rest : List Byte) :
    strictBytes (c0 :: c1 :: c2 :: c3 :: rest) = quantumBytes 0 c0 c1 c2 c3 ++ strictBytes rest := by
  cases rest with
  | nil => simp [strictBytes, (padCount_eq_zero c2 c3).mpr ⟨h2, h3⟩]
  | cons c rest => rfl

/-- The bytes that a quantum lacks are 0 in its 24 bits (R121). -/
theorem quantumOfBytes_oneByte_mod (b0 : Byte) : quantumOfBytes b0 0 0 % 2 ^ 16 = 0 := by simp [quantumOfBytes]

theorem quantumOfBytes_twoBytes_mod (b0 b1 : Byte) : quantumOfBytes b0 b1 0 % 2 ^ 8 = 0 := by
  simp [quantumOfBytes]; omega

/-- A pad character reads as the sextet 0 that it stands for (R129). -/
theorem quantumOfChars_onePad {n : Nat} (h : n < 2 ^ 24) (h0 : n % 2 ^ 8 = 0) :
    quantumOfChars (sextetChar n 3) (sextetChar n 2) (sextetChar n 1) padChar = n := by
  simp only [quantumOfChars, sextet_sextetChar, sextet_padChar]; omega

theorem quantumOfChars_twoPads {n : Nat} (h : n < 2 ^ 24) (h0 : n % 2 ^ 16 = 0) :
    quantumOfChars (sextetChar n 3) (sextetChar n 2) padChar padChar = n := by
  simp only [quantumOfChars, sextet_sextetChar, sextet_padChar]; omega

/-- What the encoder writes is canonical: the bits under its pad characters are 0 (R123). -/
theorem canonical_b64Encode (p : List Byte) : canonical (b64Encode p) = true := by
  induction p using b64Encode.induct with
  | case1 => rfl
  | case2 b0 =>
    have hpad := (padCount_eq_two padChar padChar).mpr ⟨rfl, rfl⟩
    have hlow : sextet (sextetChar (quantumOfBytes b0 0 0) 2) % 16 = 0 := by
      have hmod := quantumOfBytes_oneByte_mod b0
      rw [sextet_sextetChar]; omega
    exact (lastQuantumOk_iff _ _ _ _).mpr ⟨by simp, by simp, .inr (.inr ⟨hpad, hlow⟩)⟩
  | case3 b0 b1 =>
    have hpad := (padCount_eq_one (sextetChar (quantumOfBytes b0 b1 0) 1) padChar).mpr ⟨by simp, rfl⟩
    have hlow : sextet (sextetChar (quantumOfBytes b0 b1 0) 1) % 4 = 0 := by
      have hmod := quantumOfBytes_twoBytes_mod b0 b1
      rw [sextet_sextetChar]; omega
    exact (lastQuantumOk_iff _ _ _ _).mpr ⟨by simp, by simp, .inr (.inl ⟨hpad, hlow⟩)⟩
  | case4 b0 b1 b2 rest ih =>
    rw [b64Encode, canonical_fullQuantum (by simp) (by simp) (by simp) (by simp), ih]

/-- The strict decoder undoes the encoder, quantum by quantum: a quantum's characters make its 24 bits again, and those its
bytes (R123). -/
theorem strictBytes_b64Encode (p : List Byte) : strictBytes (b64Encode p) = p := by
  induction p using b64Encode.induct with
  | case1 => rfl
  | case2 b0 =>
    have hpad := (padCount_eq_two padChar padChar).mpr ⟨rfl, rfl⟩
    have hbits := quantumOfChars_twoPads (quantumOfBytes_lt b0 0 0) (quantumOfBytes_oneByte_mod b0)
    obtain ⟨e0, -, -⟩ := quantumByte_quantumOfBytes b0 0 0
    simp only [b64Encode, strictBytes, hpad, Option.getD_some, quantumBytes, hbits, e0]
    rfl
  | case3 b0 b1 =>
    have hpad := (padCount_eq_one (sextetChar (quantumOfBytes b0 b1 0) 1) padChar).mpr ⟨by simp, rfl⟩
    have hbits := quantumOfChars_onePad (quantumOfBytes_lt b0 b1 0) (quantumOfBytes_twoBytes_mod b0 b1)
    obtain ⟨e0, e1, -⟩ := quantumByte_quantumOfBytes b0 b1 0
    simp only [b64Encode, strictBytes, hpad, Option.getD_some, quantumBytes, hbits, e0, e1]
    rfl
  | case4 b0 b1 b2 rest ih =>
    have hbits := quantumOfChars_sextetChars _ (quantumOfBytes_lt b0 b1 b2)
    obtain ⟨e0, e1, e2⟩ := quantumByte_quantumOfBytes b0 b1 b2
    rw [b64Encode, strictBytes_fullQuantum _ _ (by simp) (by simp), ih]
    simp only [quantumBytes, hbits, e0, e1, e2]
    rfl

/-- B64_DECODE undoes B64_ENCODE under either policy (R123, R128). -/
theorem b64Decode_b64Encode (cfg : Config.Cfg) (p : List Byte) : b64Decode cfg (b64Encode p) = .ok p := by
  rw [b64Decode, if_pos (canonical_b64Encode p), strictBytes_b64Encode]

/-- A well-formed frame's payload unpacks to the frame's own stream bits (R63, R64, R140). -/
theorem bitUnpack_payloadOf_grouped {ps : List (ValueField × CountField)} {tail : BitStream}
    (h : (Instr.groupedFrame ps tail).wf = true) :
    bitUnpack (payloadOf (encode (.groupedFrame ps tail))) = frameBits (.groupedFrame ps tail) := by
  obtain ⟨-, hwhole⟩ := (wf_grouped_iff ps tail).mp h
  exact bitUnpack_packBytes _ (by rw [frameBits_grouped]; simp; omega)

theorem bitUnpack_payloadOf_raw {vs : List ValueField} {tail : BitStream} (h : (Instr.rawFrame vs tail).wf = true) :
    bitUnpack (payloadOf (encode (.rawFrame vs tail))) = frameBits (.rawFrame vs tail) := by
  obtain ⟨-, hwhole⟩ := (wf_raw_iff vs tail).mp h
  exact bitUnpack_packBytes _ (by rw [frameBits_raw]; simp; omega)

/-- A DECODE within capacity, whose token has the payload `p`, ends as FIELD_DECODE of the bits of `p` does (R161). -/
theorem exec_decode_of_payload {s : State} {token p : List Byte} (hf : Fits s.cfg.maxTokenLen token.length)
    (hp : b64Decode s.cfg token = .ok p) :
    exec (.decode token) s =
      s.endCommand 1 ((fieldDecode s.cfg (bitUnpack p)).map fun f => .naturals (trimZeros f.out)) := by
  rw [← decodeWork_payload hf hp]; rfl

/-- TRAILING's answer, put in FIELD_DECODE's record and then trimmed, is what a frame ends with. -/
theorem finishFrame_of_trailing (cfg : Config.Cfg) (pos endPos : Nat) (tail : BitStream) (mode : Mode) (out : List Nat) :
    ((trailing cfg (pos + tail.length) pos tail mode out).map fun r => Fields.mk mode endPos r).map
        (fun f => Output.naturals (trimZeros f.out)) =
      finishFrame cfg (pos + tail.length) tail mode out := by
  rw [finishFrame, Nat.add_sub_cancel]
  cases trailing cfg (pos + tail.length) pos tail mode out <;> rfl

/-- Within capacity, the DECODE of a well-formed grouped frame's token runs the frame (R16, R143). -/
theorem exec_decode_tokenOf_grouped {s : State} {ps : List (ValueField × CountField)} {tail : BitStream}
    (h : (Instr.groupedFrame ps tail).wf = true)
    (hf : Fits s.cfg.maxTokenLen (tokenOf (.groupedFrame ps tail)).length) :
    exec (.decode (tokenOf (.groupedFrame ps tail))) s = exec (.groupedFrame ps tail) s := by
  obtain ⟨htail, -⟩ := (wf_grouped_iff ps tail).mp h
  rw [exec_decode_of_payload hf (b64Decode_b64Encode _ _), bitUnpack_payloadOf_grouped h,
    fieldDecode_grouped _ _ _ htail, finishFrame_of_trailing]
  rfl

/-- Within capacity, the DECODE of a well-formed raw frame's token runs the frame (R16, R143). -/
theorem exec_decode_tokenOf_raw {s : State} {vs : List ValueField} {tail : BitStream}
    (h : (Instr.rawFrame vs tail).wf = true) (hf : Fits s.cfg.maxTokenLen (tokenOf (.rawFrame vs tail)).length) :
    exec (.decode (tokenOf (.rawFrame vs tail))) s = exec (.rawFrame vs tail) s := by
  obtain ⟨htail, -⟩ := (wf_raw_iff vs tail).mp h
  rw [exec_decode_of_payload hf (b64Decode_b64Encode _ _), bitUnpack_payloadOf_raw h,
    fieldDecode_raw _ _ _ htail, finishFrame_of_trailing]
  rfl

end Sys2Proof.Machine

/-! The statements of 00_scope.md: which instruction a step runs. -/

namespace Sys2Proof.Machine

open Sys2Proof

/-- Where the host makes no move, a step runs what the command in progress decodes to (R28, R203(b)). -/
theorem step_of_inProgress {s : State} {c : Command} {i : Instr} (hh : s.host = []) (hc : s.inProgress = some c)
    (hi : decodeCommand c = .ok i) : step s = exec i s := by
  simp only [step, hh, State.work, hc, hi]

/-- Settles O57: a command decodes to itself; a frame's command decodes to the DECODE of its token, which runs the frame since
no token limit stops it. -/
theorem stepRunsEveryWellFormedInstruction : Obligations.StepRunsEveryWellFormedInstruction := by
  intro s i hwf hh hmax hc
  have hfits (n : Nat) : Fits s.cfg.maxTokenLen n := by simp [Fits, hmax]
  cases i with
  | encode values => exact step_of_inProgress hh hc rfl
  | decode token => exact step_of_inProgress hh hc rfl
  | groupedFrame pairs tail => exact (step_of_inProgress hh hc rfl).trans (exec_decode_tokenOf_grouped hwf (hfits _))
  | rawFrame values tail => exact (step_of_inProgress hh hc rfl).trans (exec_decode_tokenOf_raw hwf (hfits _))

end Sys2Proof.Machine

/-! SUPPORT. What one step can do: which operation the host's move runs, and all that each operation answers (10_state.md R22,
R28; 70_reset_and_hazards.md R203, R207). -/

namespace Sys2Proof.Machine

open Sys2Proof

/-- Where the host makes no move, the block works (R205). -/
theorem step_of_no_move {s : State} (h : s.host = []) : step s = s.work := by
  simp only [step, h]

/-- A step takes the host's next move off the list and makes it (R207). -/
theorem step_of_move {s : State} {m : HostMove} {rest : List HostMove} (h : s.host = m :: rest) :
    step s = State.hostMove { s with host := rest } m := by
  simp only [step, h]

/-- A `RES` with a status the block writes is read whole (R22, R181). -/
theorem State.readRes_of_valid {s : State} (hv : s.res.valid = true) (hs : s.res.status.toNat ≤ 5) :
    s.readRes = .next { s with lastRead := some s.res } := by
  obtain ⟨c, hc⟩ := Option.isSome_iff_exists.mp ((Status.ofCode_isSome s.res.status).trans (decide_eq_true hs))
  simp only [State.readRes, if_pos hv, hc]

/-- Any other status of a valid `RES` is a fault of the model (R181). -/
theorem State.readRes_of_reserved {s : State} (hv : s.res.valid = true) (hs : 6 ≤ s.res.status.toNat) :
    s.readRes = .fault (.reservedStatus s.res.status) := by
  have hc : Status.ofCode s.res.status = none := by
    rw [← Option.not_isSome_iff_eq_none, Status.ofCode_isSome, decide_eq_true_iff]
    omega
  simp only [State.readRes, if_pos hv, hc]

/-- Nothing is read of an invalid `RES` (R207). -/
theorem State.readRes_of_invalid {s : State} (hv : s.res.valid = false) :
    s.readRes = .next { s with lastRead := none } := by
  simp [State.readRes, hv]

/-- A read that goes on changes what the host has read and nothing else: to the valid `RES`, or to nothing. -/
theorem State.readRes_next {s t : State} (h : s.readRes = .next t) :
    (s.res.valid = true ∧ t = { s with lastRead := some s.res }) ∨
    (s.res.valid = false ∧ t = { s with lastRead := none }) := by
  cases hv : s.res.valid with
  | false =>
    rw [State.readRes_of_invalid hv] at h
    cases h
    exact .inr ⟨rfl, rfl⟩
  | true =>
    rcases Nat.lt_or_ge 5 s.res.status.toNat with hs | hs
    · rw [State.readRes_of_reserved hv hs] at h
      cases h
    · rw [State.readRes_of_valid hv hs] at h
      cases h
      exact .inl ⟨rfl, rfl⟩

/-- Only an idle block accepts a command, and it captures the command and changes nothing else (R203(b), R203(c)). -/
theorem State.accept_next {s t : State} {c : Command} (h : s.accept c = .next t) :
    s.inProgress = none ∧ t = { s with inProgress := some c } := by
  cases hp : s.inProgress with
  | none =>
    simp only [State.accept, hp] at h
    cases h
    exact ⟨rfl, rfl⟩
  | some d =>
    simp only [State.accept, hp] at h
    cases h

/-- Work that goes on leaves an idle block as it is, or runs the instruction that the command in progress decodes to. -/
theorem State.work_next {s t : State} (h : s.work = .next t) :
    (s.inProgress = none ∧ t = s) ∨
    (∃ c i, s.inProgress = some c ∧ decodeCommand c = .ok i ∧ exec i s = .next t) := by
  cases hp : s.inProgress with
  | none =>
    simp only [State.work, hp] at h
    cases h
    exact .inl ⟨rfl, rfl⟩
  | some c =>
    cases hd : decodeCommand c with
    | ok i =>
      simp only [State.work, hp, hd] at h
      exact .inr ⟨c, i, rfl, hd, h⟩
    | error e =>
      simp only [State.work, hp, hd] at h
      cases h

end Sys2Proof.Machine

/-! SUPPORT. A command is its units' answer, computed from the operand and the configuration, and then the one ending that all
commands share (44_commands.md R160, R161, R166). -/

namespace Sys2Proof.Machine

open Sys2Proof

/-- What the units of an instruction answer: no more of the state than the configuration goes in (R20). -/
def unitsAnswer (cfg : Config.Cfg) : Instr → UnitResult Output
  | .encode values => (encodeWork cfg values).map fun w => .octets w.t
  | .decode token => (decodeWork cfg token).map fun w => .naturals w.out
  | .groupedFrame pairs tail =>
    finishFrame cfg (groupedBits pairs tail) tail .grouped (pairs.flatMap fun p => List.replicate p.2.toNat p.1.toNat)
  | .rawFrame values tail => finishFrame cfg (rawBits values tail) tail .raw (values.map fun v => v.toNat)

/-- Every instruction ends the command that runs it with its units' answer. -/
theorem exec_eq_endCommand (i : Instr) (s : State) :
    exec i s = s.endCommand (commandFor i).op (unitsAnswer s.cfg i) := by
  cases i with
  | encode values => rfl
  | decode token => rfl
  | groupedFrame pairs tail => rfl
  | rawFrame values tail => rfl

/-- An instruction that goes on writes a valid `RES` of its own OP and ends; the rest of the state stays (R162). -/
theorem exec_next {i : Instr} {s t : State} (h : exec i s = .next t) :
    ∃ res : Res, t = s.endWith res ∧ res.valid = true ∧ res.op = (commandFor i).op :=
  State.endCommand_next ((exec_eq_endCommand i s).symm.trans h)

/-- The `RES` that an answer gives does not depend on the state it ends. -/
theorem State.endCommand_of_next {s t : State} {op : BitVec 1} {r : UnitResult Output} (h : s.endCommand op r = .next t)
    (u : State) : u.endCommand op r = .next (u.endWith t.res) := by
  rcases r with (e | f) | out
  · cases h; rfl
  · cases h
  · cases h; rfl

end Sys2Proof.Machine

/-! The statements of 10_state.md: the configuration, the result register, and the state after reset. -/

namespace Sys2Proof.Machine

open Sys2Proof

/-- Work on the command in progress keeps the configuration (R27). -/
theorem State.work_cfg {s t : State} (h : s.work = .next t) : t.cfg = s.cfg := by
  rcases State.work_next h with ⟨-, rfl⟩ | ⟨c, i, -, -, hexec⟩
  · rfl
  · obtain ⟨res, rfl, -, -⟩ := exec_next hexec
    rfl

/-- No move of the host changes the configuration (R207, last row). -/
theorem State.hostMove_cfg {s t : State} {m : HostMove} (h : s.hostMove m = .next t) : t.cfg = s.cfg := by
  cases m with
  | issue c =>
    obtain ⟨-, rfl⟩ := State.accept_next h
    rfl
  | readRes => rcases State.readRes_next h with ⟨-, rfl⟩ | ⟨-, rfl⟩ <;> rfl
  | reset => cases h; rfl
  | wait => exact State.work_cfg h

/-- Settles O10: a step is a move of the host or, where there is none, the block's work. -/
theorem noStepChangesTheConfiguration : Obligations.NoStepChangesTheConfiguration := by
  intro s t h
  cases hh : s.host with
  | nil => exact State.work_cfg ((step_of_no_move hh).symm.trans h)
  | cons m rest => exact State.hostMove_cfg (s := { s with host := rest }) ((step_of_move hh).symm.trans h)

/-- Settles O56: equal configurations give the units the same answer, and the answer alone fixes `RES`. -/
theorem resultDependsOnOperandAndConfigurationOnly : Obligations.ResultDependsOnOperandAndConfigurationOnly := by
  intro i s u t hcfg h
  rw [exec_eq_endCommand, hcfg] at h
  exact ⟨u.endWith t.res, (exec_eq_endCommand i u).trans (State.endCommand_of_next h u), rfl⟩

/-- Settles O5: taking the move off the list changes neither `RES` nor the rest of the block, and then the host reads. -/
theorem hostReadsResWithoutEffect : Obligations.HostReadsResWithoutEffect := by
  intro s rest hh
  rw [step_of_move hh]
  exact ⟨fun hv hs => State.readRes_of_valid hv hs, fun hv => State.readRes_of_invalid hv⟩

/-- While `valid = 0` nothing is asked of the other fields of `RES` (R22, R30). -/
theorem Res.wf_of_invalid {r : Res} (h : r.valid = false) : r.wf = true := by
  simp [Res.wf, h]

/-- Settles O59: `RES` is invalid, no command is in progress, and the host has neither read nor planned anything. -/
theorem resetStateIsWellFormed : Obligations.ResetStateIsWellFormed := by
  intro cfg
  have hres : Res.reset.wf = true := Res.wf_of_invalid Res.reset_valid
  simp [State.wf, State.resetWith, hres]

end Sys2Proof.Machine

/-! The statements of 20_memory.md: the places of the stream's bits in the payload's bytes. -/

namespace Sys2Proof.Machine

/-- Place `t` of a number's `w` bits holds its bit `w - 1 - t` (R42). -/
theorem getElem?_natBits {w t : Nat} (v : Nat) (h : t < w) : (natBits w v)[t]? = some (v.testBit (w - 1 - t)) := by
  simp [natBits_eq_map, h]

/-- Unpacking a packed stream gives it back with its zero padding behind it (R140). -/
theorem bitUnpack_bitPack (bs : BitStream) :
    bitUnpack (bitPack bs) = bs ++ List.replicate (padLength bs.length) false :=
  bitUnpack_packBytes _ (by simpa using padLength_whole bs.length)

/-- Bit `i` of an unpacked payload is bit `7 - (i mod 8)` of byte `i div 8` (R41); past the last byte there is neither. -/
theorem getElem?_bitUnpack (p : List Byte) (i : Nat) :
    (bitUnpack p)[i]? = (p[i / 8]?).map fun b => b.toNat.testBit (7 - i % 8) := by
  induction p generalizing i with
  | nil => simp
  | cons b p ih =>
    have hlen : (natBits 8 b.toNat).length = 8 := natBits_length 8 b.toNat
    rw [bitUnpack_cons]
    rcases Nat.lt_or_ge i 8 with hi | hi
    · rw [List.getElem?_append_left (hlen.symm ▸ hi), getElem?_natBits _ hi, Nat.div_eq_of_lt hi, Nat.mod_eq_of_lt hi]
      rfl
    · obtain ⟨j, rfl⟩ := Nat.exists_eq_add_of_le' hi
      rw [List.getElem?_append_right (hlen.symm ▸ hi), hlen, Nat.add_sub_cancel, ih, Nat.add_div_right j (by decide),
        Nat.add_mod_right, List.getElem?_cons_succ]

/-- Settles O16: unpacking byte by byte; a packed stream's bits are those that unpacking it gives, before the padding. -/
theorem streamBitIsItsByteBit : Obligations.StreamBitIsItsByteBit := by
  refine ⟨fun p i _ => getElem?_bitUnpack p i, fun bs i hi => ?_⟩
  rw [← getElem?_bitUnpack, bitUnpack_bitPack, List.getElem?_append_left hi]

end Sys2Proof.Machine

/-! The statements of 30_encoding.md: both levels' decoder against the encoder, and where an ENCODE's fields stand in its
payload. -/

namespace Sys2Proof.Machine

open Sys2Proof

/-- Packing undoes unpacking, byte by byte (R140). -/
theorem packBytes_bitUnpack (p : List Byte) : packBytes (bitUnpack p) = p := by
  induction p with
  | nil => rfl
  | cons b p ih => rw [bitUnpack_cons, packBytes_natBits, ih]

/-- The frame decoder undoes a frame's layout where the tail is too short for another field (R63, R64, R69). -/
theorem decodeStream_frameBits_grouped {ps : List (ValueField × CountField)} {tail : BitStream} (ht : tail.length < 19) :
    decodeStream (frameBits (.groupedFrame ps tail)) = .ok (.groupedFrame ps tail) := by
  rw [frameBits_grouped, decodeStream_true, splitPairs_layout ps tail ht _ (by simp; omega)]

theorem decodeStream_frameBits_raw {vs : List ValueField} {tail : BitStream} (ht : tail.length < 9) :
    decodeStream (frameBits (.rawFrame vs tail)) = .ok (.rawFrame vs tail) := by
  rw [frameBits_raw, decodeStream_false, splitValues_layout vs tail ht _ (by simp; omega)]

/-- Settles O13: a command decodes by its OP; a frame's payload unpacks to the frame's stream bits, which split into its
fields and its tail. -/
theorem decodeOfEncodeIsTheInstruction : Obligations.DecodeOfEncodeIsTheInstruction := by
  intro i hwf
  cases i with
  | encode values => rfl
  | decode token => rfl
  | groupedFrame pairs tail =>
    obtain ⟨htail, -⟩ := (wf_grouped_iff pairs tail).mp hwf
    exact (congrArg decodeStream (bitUnpack_payloadOf_grouped hwf)).trans (decodeStream_frameBits_grouped htail)
  | rawFrame values tail =>
    obtain ⟨htail, -⟩ := (wf_raw_iff values tail).mp hwf
    exact (congrArg decodeStream (bitUnpack_payloadOf_raw hwf)).trans (decodeStream_frameBits_raw htail)

/-- Every non-empty stream of whole bytes is one frame, by its mode flag: its bits after the flag are whole fields and a
tail too short for another, so none is dropped (R62, R69, R70). -/
theorem decodeStream_complete (flag : Bool) (bits : BitStream) (hwhole : (flag :: bits).length % 8 = 0) :
    ∃ i, decodeStream (flag :: bits) = .ok i ∧ i.wf = true ∧ encode i = .payload (packBytes (flag :: bits)) := by
  cases flag with
  | true =>
    obtain ⟨hbits, htail⟩ := splitPairs_complete bits.length bits (by omega)
    have hframe := frameBits_grouped (splitPairs bits.length bits).1 (splitPairs bits.length bits).2
    rw [hbits] at hframe
    have hlen := congrArg List.length hbits
    simp only [List.length_append, pairsBits_length, List.length_cons] at hlen hwhole
    exact ⟨_, decodeStream_true bits, (wf_grouped_iff _ _).mpr ⟨htail, by omega⟩,
      congrArg (fun bs => Code.payload (packBytes bs)) hframe⟩
  | false =>
    obtain ⟨hbits, htail⟩ := splitValues_complete bits.length bits (by omega)
    have hframe := frameBits_raw (splitValues bits.length bits).1 (splitValues bits.length bits).2
    rw [hbits] at hframe
    have hlen := congrArg List.length hbits
    simp only [List.length_append, valuesBits_length, List.length_cons] at hlen hwhole
    exact ⟨_, decodeStream_false bits, (wf_raw_iff _ _).mpr ⟨htail, by omega⟩,
      congrArg (fun bs => Code.payload (packBytes bs)) hframe⟩

/-- Settles O14: a non-empty payload unpacks to a stream with a mode flag, which is one frame's; packing that stream gives
the payload again. -/
theorem everyNonEmptyPayloadIsOneFrame : Obligations.EveryNonEmptyPayloadIsOneFrame := by
  intro p hp
  obtain ⟨flag, bits, hstream⟩ := List.exists_cons_of_ne_nil (mt (bitUnpack_eq_nil p).mp hp)
  have hwhole : (flag :: bits).length % 8 = 0 := by rw [← hstream, bitUnpack_length]; omega
  obtain ⟨i, hdecode, hwf, hencode⟩ := decodeStream_complete flag bits hwhole
  rw [← hstream] at hdecode hencode
  exact ⟨i, hdecode, hwf, by rw [hencode, packBytes_bitUnpack]⟩

/-- Settles O11: of the four pairs of an OP and a kind of operand, ENCODE's and DECODE's decode and the other two do not. -/
theorem everyWellFormedCommandDecodes : Obligations.EveryWellFormedCommandDecodes := by
  rintro ⟨op, operand⟩
  obtain rfl | rfl : op = 0 ∨ op = 1 := by revert op; decide
  · cases operand with
    | ints values => exact iff_of_true rfl ⟨.encode values, rfl⟩
    | octets token => exact iff_of_false (by simp [Command.wf]) (by simp [decodeCommand])
  · cases operand with
    | ints values => exact iff_of_false (by simp [Command.wf]) (by simp [decodeCommand])
    | octets token => exact iff_of_true rfl ⟨.decode token, rfl⟩

/-- Settles O12: the decoder evaluated on each of the four. -/
theorem writtenOutPayloadsDecode : Obligations.WrittenOutPayloadsDecode :=
  ⟨by decide, by decide, by decide, by decide⟩

/-! SUPPORT. A stream that is a mode flag and then blocks of one width, packed and unpacked (R41, R103, R110). -/

/-- The mode flag of a packed stream, read from the payload (R62). -/
theorem readField_flag_packed (flag : Bool) (bits : BitStream) :
    readField (bitUnpack (bitPack (flag :: bits))) 0 1 = flag.toNat := by
  rw [bitUnpack_bitPack]
  cases flag <;> rfl

/-- The length of a mode flag and blocks of one width (R66). -/
theorem length_flag_blocks {α : Type} {f : α → BitStream} {n : Nat} (hf : ∀ a, (f a).length = n) (flag : Bool)
    (l : List α) : (flag :: l.flatMap f).length = 1 + n * l.length := by
  simp [List.length_flatMap, hf, Nat.mul_comm, Nat.add_comm]

/-- Blocks, cut at the `k`-th. -/
theorem flatMap_eq_append_getElem_append {α : Type} (f : α → BitStream) (l : List α) {k : Nat} (hk : k < l.length) :
    l.flatMap f = (l.take k).flatMap f ++ (f l[k] ++ (l.drop (k + 1)).flatMap f) := by
  rw [← List.flatMap_cons, ← List.drop_eq_getElem_cons hk, ← List.flatMap_append, List.take_append_drop]

/-- A field of a packed stream, read from the payload: the `w` bits `before.length` bits into the `k`-th block behind the
mode flag (R42, R103). -/
theorem readField_packed {α : Type} {f : α → BitStream} {n : Nat} (hf : ∀ a, (f a).length = n) (flag : Bool) {l : List α}
    {k : Nat} (hk : k < l.length) {before after : BitStream} {v w pos : Nat}
    (hblock : f l[k] = before ++ natBits w v ++ after) (hpos : pos = 1 + n * k + before.length) :
    readField (bitUnpack (bitPack (flag :: l.flatMap f))) pos w = v % 2 ^ w := by
  have hsplit (pad : BitStream) : flag :: l.flatMap f ++ pad =
      (flag :: (l.take k).flatMap f ++ before) ++ natBits w v ++ (after ++ (l.drop (k + 1)).flatMap f ++ pad) := by
    rw [flatMap_eq_append_getElem_append f l hk, hblock]; simp
  have hstart : pos = (flag :: (l.take k).flatMap f ++ before).length := by
    rw [List.length_append, length_flag_blocks hf, List.length_take_of_le hk.le, hpos]
  have hread := readField_append (flag :: (l.take k).flatMap f ++ before) (natBits w v)
    (after ++ (l.drop (k + 1)).flatMap f ++ List.replicate (padLength (flag :: l.flatMap f).length) false)
  rwa [← hsplit, ← hstart, natBits_length, fieldValue_natBits, ← bitUnpack_bitPack] at hread

/-- The number of bytes of a packed stream (R110). -/
theorem bitPack_length (bs : BitStream) : (bitPack bs).length = (bs.length + 7) / 8 := by
  have hlen := congrArg List.length (bitUnpack_bitPack bs)
  simp only [bitUnpack_length, List.length_append, List.length_replicate, padLength, Config.byteBits] at hlen
  omega

/-- Behind a packed stream's own bits its payload holds zeros to the end (R110). -/
theorem drop_bitUnpack_bitPack (bs : BitStream) :
    (bitUnpack (bitPack bs)).drop bs.length = List.replicate (8 * (bitPack bs).length - bs.length) false := by
  have hlen := congrArg List.length (bitUnpack_bitPack bs)
  rw [bitUnpack_length, List.length_append, List.length_replicate] at hlen
  rw [bitUnpack_bitPack, List.drop_left, hlen, Nat.add_sub_cancel_left]

/-! SUPPORT. What a finished ENCODE worked with (R24), and what its fields hold. -/

/-- An ENCODE whose units all answer had a legal input, and under `Reject` in grouped mode counts that fit their field
(R81, R102). -/
theorem encodeWork_ok {cfg : Config.Cfg} {input : List Int} {w : EncodeWork} (h : encodeWork cfg input = .ok w) :
    w = encodedWork input ∧ (∀ x ∈ input, legalValue x = true) ∧
      (modeSelect (tableOf input).length input.length = .raw ∨ cfg.countOverflowPolicy = .wrap ∨
        ∀ e ∈ tableOf input, e.count ≤ 1023) := by
  rcases encodeWork_cases cfg input with ⟨m, -, -, he⟩ | ⟨-, hunits⟩
  · cases h.symm.trans he
  · rcases hunits with ⟨_, x, _, -, -, -, he⟩ | ⟨hlegal, ⟨e, -, -, -, he⟩ | ⟨hcounts, he⟩⟩
    · cases h.symm.trans he
    · cases h.symm.trans he
    · cases h.symm.trans he
      exact ⟨rfl, hlegal, hcounts⟩

/-- The stream of a legal input, by mode (R63, R64). -/
theorem streamOf_grouped {input : List Int} (h : modeSelect (tableOf input).length input.length = .grouped) :
    streamOf input = true :: (tableOf input).flatMap entryBits := by
  simp only [streamOf, h]

theorem streamOf_raw {input : List Int} (h : modeSelect (tableOf input).length input.length = .raw) :
    streamOf input = false :: input.flatMap fun x => natBits Config.valueBits x.toNat := by
  simp only [streamOf, h]

/-- A legal value fits its field, which holds it whole (R5, R101). -/
theorem toNat_mod_of_legal {x : Int} (h : legalValue x = true) : ((x.toNat % 2 ^ Config.valueBits : Nat) : Int) = x := by
  obtain ⟨hlo, hhi⟩ := (legalValue_iff x).mp h
  rw [Config.valueBits]
  omega

/-- The empty input selects raw, so a grouped table has an entry (R91). -/
theorem tableOf_length_pos_of_grouped {input : List Int}
    (h : modeSelect (tableOf input).length input.length = .grouped) : 0 < (tableOf input).length := by
  cases input with
  | nil => cases h
  | cons x input => simp [tableOf, List.eraseDups_cons]

/-- Settles O30: an ENCODE's payload unpacks to the flag, the table's entries and the padding; entry `k` is the `k`-th
block of 19 bits, its value the first 9 of them and its count the other 10. -/
theorem groupedFrameLayout : Obligations.GroupedFrameLayout := by
  intro cfg input w hwork hmode
  obtain ⟨rfl, hlegal, hcounts⟩ := encodeWork_ok hwork
  have hp : (encodedWork input).p = bitPack (true :: (tableOf input).flatMap entryBits) :=
    congrArg bitPack (streamOf_grouped hmode)
  have hlen : 1 + 19 * (encodedWork input).d = (true :: (tableOf input).flatMap entryBits).length :=
    (length_flag_blocks entryBits_length true (tableOf input)).symm
  rw [hp, hlen]
  refine ⟨readField_flag_packed _ _, tableOf_length_pos_of_grouped hmode, fun k (hk : k < (tableOf input).length) => ?_,
    bitPack_length _, drop_bitUnpack_bitPack _⟩
  have hmem : (tableOf input)[k] ∈ tableOf input := List.getElem_mem hk
  have hvalue : readField (bitUnpack (bitPack (true :: (tableOf input).flatMap entryBits))) (1 + 19 * k) 9 =
      (tableOf input)[k].value.toNat % 2 ^ Config.valueBits :=
    readField_packed entryBits_length true hk (before := []) rfl rfl
  have hcount : readField (bitUnpack (bitPack (true :: (tableOf input).flatMap entryBits))) (10 + 19 * k) 10 =
      (tableOf input)[k].count % 2 ^ Config.countBits % 2 ^ 10 :=
    readField_packed entryBits_length true hk (List.append_nil _).symm (by rw [natBits_length, Config.valueBits]; omega)
  rw [Nat.mod_mod] at hcount
  refine ⟨?_, hcount, fun hreject => hcount.trans (Nat.mod_eq_of_lt ?_)⟩
  · rw [hvalue]; exact toNat_mod_of_legal (tableOf_legal input hlegal _ hmem)
  · rcases hcounts with hraw | hwrap | hfit
    · cases hmode.symm.trans hraw
    · cases hreject.symm.trans hwrap
    · exact Nat.lt_succ_of_le (hfit _ hmem)

/-- Settles O31: an ENCODE's payload unpacks to the flag, the elements and the padding; element `k` is the `k`-th block of 9
bits. -/
theorem rawFrameLayout : Obligations.RawFrameLayout := by
  intro cfg input w hwork hmode
  obtain ⟨rfl, hlegal, -⟩ := encodeWork_ok hwork
  have hwidth (x : Int) : (natBits Config.valueBits x.toNat).length = 9 := natBits_length _ _
  have hp : (encodedWork input).p = bitPack (false :: input.flatMap fun x => natBits Config.valueBits x.toNat) :=
    congrArg bitPack (streamOf_raw hmode)
  have hlen : 1 + 9 * (encodedWork input).n =
      (false :: input.flatMap fun x => natBits Config.valueBits x.toNat).length :=
    (length_flag_blocks hwidth false input).symm
  rw [hp, hlen]
  refine ⟨readField_flag_packed _ _, fun k hk => ?_, bitPack_length _, drop_bitUnpack_bitPack _⟩
  have hvalue : readField (bitUnpack (bitPack (false :: input.flatMap fun x => natBits Config.valueBits x.toNat)))
      (1 + 9 * k) 9 = input[k].toNat % 2 ^ Config.valueBits :=
    readField_packed hwidth false hk (before := []) (List.append_nil _).symm rfl
  rw [hvalue]
  exact toNat_mod_of_legal (hlegal _ (List.getElem_mem hk))

end Sys2Proof.Machine

/-! SUPPORT. The table of a sequence (40_count_and_select.md R82, R83), and the length of a legal input's stream, whichever mode
it is written in (R66, R92). -/

namespace Sys2Proof.Machine

open Sys2Proof

/-- R81's two ways to say that every element passes. -/
theorem allLegal_iff_legalValue (input : List Int) : AllLegal input ↔ ∀ x ∈ input, legalValue x = true := by
  simp only [allLegal_iff, legalValue_iff]

/-- FREQ_COUNT answers only on a legal input, and with its table (R80, R81). -/
theorem freqCount_ok {input : List Int} {ft : FreqTable} (h : freqCount input = .ok ft) :
    ft = tableOf input ∧ ∀ x ∈ input, legalValue x = true := by
  rcases legal_or_first_illegal input with hlegal | ⟨before, x, after, rfl, hb, hx⟩
  · rw [freqCount_legal input hlegal] at h
    cases h
    exact ⟨rfl, hlegal⟩
  · cases h.symm.trans (freqCount_illegal before after x hb hx [])

@[simp] theorem tableOf_map_value (input : List Int) : (tableOf input).map Entry.value = input.eraseDups := by
  simp [tableOf, Function.comp_def]

@[simp] theorem tableOf_map_count (input : List Int) :
    (tableOf input).map Entry.count = input.eraseDups.map fun v => input.count v := by
  simp [tableOf, Function.comp_def]

@[simp] theorem tableOf_length (input : List Int) : (tableOf input).length = input.eraseDups.length := by
  simp [tableOf]

/-- What an entry says of the sequence: its value occurs, as often as its count. -/
theorem of_mem_tableOf {input : List Int} {e : Entry} (h : e ∈ tableOf input) :
    e.value ∈ input ∧ e.count = input.count e.value := by
  obtain ⟨v, hv, rfl⟩ := List.mem_map.mp h
  exact ⟨List.mem_eraseDups.mp hv, rfl⟩

/-- The distinct values of a sequence are in any list that has all its members, and so no more than that list's elements. -/
theorem eraseDups_length_le {l m : List Int} (h : l ⊆ m) : l.eraseDups.length ≤ m.length :=
  ((nodup_eraseDups l).subperm fun _ hv => h (List.mem_eraseDups.mp hv)).length_le

/-- There are 300 legal values (R81). -/
theorem eraseDups_length_le_300 {input : List Int} (h : ∀ x ∈ input, legalValue x = true) :
    input.eraseDups.length ≤ 300 := by
  have hsub : input ⊆ (Finset.Icc (1 : Int) 300).toList := fun x hx => by
    rw [Finset.mem_toList, Finset.mem_Icc]
    exact (legalValue_iff x).mp (h x hx)
  have hle := eraseDups_length_le hsub
  rwa [Finset.length_toList, Int.card_Icc] at hle

/-- Every element is counted under exactly one of the distinct values (R83(d)). -/
theorem sum_count_eraseDups (input : List Int) :
    (input.eraseDups.map fun v => input.count v).sum = input.length := by
  have hperm : input.eraseDups.Perm input.dedup :=
    (List.perm_ext_iff_of_nodup (nodup_eraseDups input) input.nodup_dedup).mpr fun v => by
      rw [List.mem_eraseDups, List.mem_dedup]
  rw [(hperm.map _).sum_eq, List.sum_map_count_dedup_eq_length]

theorem eraseDups_length_eq_zero (input : List Int) : input.eraseDups.length = 0 ↔ input.length = 0 := by
  cases input with
  | nil => simp
  | cons x input => simp [List.eraseDups_cons]

/-- The stream of an input is as long as the shorter of its two layouts (R66, R92). -/
theorem streamOf_length (input : List Int) :
    (streamOf input).length = min (1 + 19 * (tableOf input).length) (1 + 9 * input.length) := by
  cases hmode : modeSelect (tableOf input).length input.length with
  | grouped =>
    have hshort := (modeSelect_grouped_iff _ _).mp hmode
    rw [streamOf_grouped hmode, length_flag_blocks entryBits_length]
    omega
  | raw =>
    have hshort := (modeSelect_raw_iff _ _).mp hmode
    have hwidth (x : Int) : (natBits Config.valueBits x.toNat).length = 9 := natBits_length _ _
    rw [streamOf_raw hmode, length_flag_blocks hwidth]
    omega

/-! The statements of 40_count_and_select.md. -/

/-- Settles O21: a legal input runs through the loop to its table; otherwise the loop stops at the first illegal element. -/
theorem freqCountReportsTheFirstIllegalElement : Obligations.FreqCountReportsTheFirstIllegalElement := by
  refine ⟨fun input hlegal => ⟨_, freqCount_legal input ((allLegal_iff_legalValue input).mp hlegal)⟩,
    fun before after x hbefore hx => ?_⟩
  have hillegal : legalValue x = false := by rwa [← Bool.not_eq_true, legalValue_iff]
  exact freqCount_illegal before after x ((allLegal_iff_legalValue before).mp hbefore) hillegal []

/-- Settles O22: the table's values are the distinct elements in the order met. -/
theorem freqTableIsInFirstOccurrenceOrder : Obligations.FreqTableIsInFirstOccurrenceOrder := by
  intro input ft h
  obtain ⟨rfl, -⟩ := freqCount_ok h
  exact tableOf_map_value input

/-- Settles O23: the table is that of a legal input, and each property is one of the distinct values or of their counts. -/
theorem freqTableProperties : Obligations.FreqTableProperties := by
  intro input ft h
  obtain ⟨rfl, hlegal⟩ := freqCount_ok h
  rw [tableOf_map_value, tableOf_map_count, tableOf_length]
  refine ⟨fun e he => ?_, nodup_eraseDups input, fun e he => ?_, sum_count_eraseDups input,
    fun e he => (of_mem_tableOf he).2,
    le_min (eraseDups_length_le (List.Subset.refl input)) (eraseDups_length_le_300 hlegal),
    eraseDups_length_eq_zero input⟩
  · exact (legalValue_iff e.value).mp (tableOf_legal input hlegal e he)
  · obtain ⟨hmem, hcount⟩ := of_mem_tableOf he
    rw [hcount]
    exact List.count_pos_iff.mpr hmem

/-- Settles O25: the stream has the shorter layout's length, and packing rounds it up to whole bytes. -/
theorem chosenModeIsNeverLonger : Obligations.ChosenModeIsNeverLonger := by
  intro cfg input w hwork
  obtain ⟨rfl, -, -⟩ := encodeWork_ok hwork
  have hbs : (encodedWork input).bs.length = min (1 + 19 * (encodedWork input).d) (1 + 9 * (encodedWork input).n) :=
    streamOf_length input
  have hp : (encodedWork input).p.length = ((encodedWork input).bs.length + 7) / 8 := bitPack_length _
  have hmode : (encodedWork input).mode = .grouped ↔ 19 * (encodedWork input).d < 9 * (encodedWork input).n :=
    modeSelect_grouped_iff _ _
  exact ⟨hmode.trans (by omega), by omega, by omega, by omega, by omega⟩

/-- Settles O26: the mode is R90's inequality; with at most 300 distinct values, 634 elements are always enough for grouped,
and a count is never more than the number of elements. -/
theorem modeThresholds : Obligations.ModeThresholds := by
  refine ⟨fun d n => (modeSelect_grouped_iff d n).trans ?_, by decide, fun input ft h => ?_⟩
  · omega
  · obtain ⟨rfl, hlegal⟩ := freqCount_ok h
    have hd : (tableOf input).length ≤ 300 := (tableOf_length input).trans_le (eraseDups_length_le_300 hlegal)
    have hcount : ∀ e ∈ tableOf input, e.count ≤ input.length := fun e he => by
      rw [(of_mem_tableOf he).2]
      exact List.count_le_length
    have hgrouped (hn : 634 ≤ input.length) : modeSelect (tableOf input).length input.length = .grouped :=
      (modeSelect_grouped_iff _ _).mpr (by omega)
    refine ⟨hd, fun hraw => ⟨?_, hcount⟩, hgrouped, fun e he hlarge => hgrouped ?_⟩
    · have hlong := (modeSelect_raw_iff _ _).mp hraw
      omega
    · have hfits := hcount e he
      omega

/-- Settles O24: the selector is the strict inequality, which a tie does not meet; 9 and 19 have no common factor. -/
theorem tieAndEmptyInputSelectRaw : Obligations.TieAndEmptyInputSelectRaw := by
  refine ⟨fun d n => (modeSelect_grouped_iff d n).trans ?_, rfl, fun d n htie => ⟨?_, ?_, ?_⟩, rfl⟩
  · omega
  · exact (modeSelect_raw_iff d n).mpr htie.ge
  · omega
  · omega

end Sys2Proof.Machine

/-! SUPPORT. The two branches of FIELD_ENCODE behind the mode flag, and all that a stream it returns can hold, whatever table and
input it was called with (R100, R103). -/

namespace Sys2Proof.Machine

open Sys2Proof

/-- FIELD_ENCODE in grouped mode: behind the mode flag's bit the pairs, once the counts have passed (R100). -/
theorem fieldEncode_grouped_eq (cfg : Config.Cfg) (input : List Int) (ft : FreqTable) :
    fieldEncode cfg input ft .grouped = checkCounts cfg.countOverflowPolicy ft >>= fun _ => emitPairs [true] ft := rfl

/-- FIELD_ENCODE in raw mode: behind the mode flag's bit the values, and no count to check (R100). -/
theorem fieldEncode_raw_eq (cfg : Config.Cfg) (input : List Int) (ft : FreqTable) :
    fieldEncode cfg input ft .raw = emitValues [false] input := rfl

/-- What `emitPairs` answers, if it answers: the entries' bits in table order, behind the stream so far (R103). -/
theorem emitPairs_ok {ft : FreqTable} {bs r : BitStream} (h : emitPairs bs ft = .ok r) : r = bs ++ ft.flatMap entryBits := by
  induction ft generalizing bs with
  | nil => cases h; simp
  | cons e ft ih =>
    obtain ⟨_, hvalue, hrest⟩ := unit_bind_ok h
    obtain ⟨_, hcount, hpairs⟩ := unit_bind_ok hrest
    obtain ⟨rfl, -⟩ := emit_ok hvalue
    obtain ⟨rfl, -⟩ := emit_ok hcount
    rw [ih hpairs, Int.toNat_natCast, List.flatMap_cons, entryBits]
    simp only [List.append_assoc]

/-- What `emitValues` answers, if it answers: the elements' bits in input order, behind the stream so far (R103). -/
theorem emitValues_ok {input : List Int} {bs r : BitStream} (h : emitValues bs input = .ok r) :
    r = bs ++ input.flatMap fun x => natBits Config.valueBits x.toNat := by
  induction input generalizing bs with
  | nil => cases h; simp
  | cons x input ih =>
    obtain ⟨_, hvalue, hvalues⟩ := unit_bind_ok h
    obtain ⟨rfl, -⟩ := emit_ok hvalue
    rw [ih hvalues, List.flatMap_cons, List.append_assoc]

/-- A stream FIELD_ENCODE returns is the mode flag and then the pairs, or the values (R63, R64). -/
theorem fieldEncode_grouped_ok {cfg : Config.Cfg} {input : List Int} {ft : FreqTable} {bs : BitStream}
    (h : fieldEncode cfg input ft .grouped = .ok bs) : bs = true :: ft.flatMap entryBits := by
  rw [fieldEncode_grouped_eq] at h
  obtain ⟨_, -, hpairs⟩ := unit_bind_ok h
  exact emitPairs_ok hpairs

theorem fieldEncode_raw_ok {cfg : Config.Cfg} {input : List Int} {ft : FreqTable} {bs : BitStream}
    (h : fieldEncode cfg input ft .raw = .ok bs) : bs = false :: input.flatMap fun x => natBits Config.valueBits x.toNat := by
  rw [fieldEncode_raw_eq] at h
  exact emitValues_ok h

/-- FIELD_ENCODE of a legal input's table answers a stream or raises, and is never a fault of the model: every value and every
count modulo 1024 fits its field (R101). -/
theorem fieldEncode_tableOf_ne_modelFault (cfg : Config.Cfg) {input : List Int} (hlegal : ∀ x ∈ input, legalValue x = true)
    (mode : Mode) (f : Fault) : fieldEncode cfg input (tableOf input) mode ≠ .error (.modelFault f) := by
  cases mode with
  | raw => rw [fieldEncode_raw cfg input _ hlegal]; exact nofun
  | grouped =>
    rcases checkCounts_cases cfg.countOverflowPolicy (tableOf input) with ⟨hpass, -⟩ | ⟨e, -, -, hraise⟩
    · rw [fieldEncode_grouped cfg input _ hpass (tableOf_legal input hlegal)]; exact nofun
    · rw [fieldEncode_grouped_eq, hraise]; exact nofun

/-- The number of padding bits is what the whole bytes have over the stream's own bits (R110). -/
theorem padLength_eq_sub (bs : BitStream) : padLength bs.length = 8 * (bitPack bs).length - bs.length := by
  simpa [bitUnpack_bitPack] using congrArg List.length (drop_bitUnpack_bitPack bs)

/-! The statements of 41_field_encode_pack.md. -/

/-- Settles O27: `emit` is its precondition's two cases; FREQ_COUNT passes on only a legal input's table. -/
theorem emitAppendsOrFaults : Obligations.EmitAppendsOrFaults := by
  refine ⟨fun bs v w => ⟨fun hfits => ?_, fun hover => if_neg hover⟩, fun cfg input ft f hcount => ?_⟩
  · rw [emit_fits bs v w hfits, natBits_eq_map]
  · obtain ⟨rfl, hlegal⟩ := freqCount_ok hcount
    exact fieldEncode_tableOf_ne_modelFault cfg hlegal _ f

/-- Settles O29: the stream is the mode flag's bit and then blocks of 19 or of 9 bits. -/
theorem streamLengthAndFlagBit : Obligations.StreamLengthAndFlagBit := by
  intro cfg input ft mode bs h
  cases mode with
  | grouped =>
    obtain rfl := fieldEncode_grouped_ok h
    exact ⟨length_flag_blocks entryBits_length true ft, rfl⟩
  | raw =>
    obtain rfl := fieldEncode_raw_ok h
    exact ⟨length_flag_blocks (fun x => natBits_length _ _) false input, rfl⟩

/-- Settles O32: unpacking what was packed gives the stream and its padding, which fills the bytes up from the length that the
mode gives the stream. -/
theorem paddingIsAtMostSevenZeroBits : Obligations.PaddingIsAtMostSevenZeroBits := by
  intro cfg input w hwork
  obtain ⟨rfl, -, -⟩ := encodeWork_ok hwork
  refine ⟨bitUnpack_bitPack _, (padLength_eq_sub (streamOf input)).trans ?_⟩
  rw [streamOf_length, Nat.sub_sub]
  dsimp only [encodedWork]
  congr 1
  cases hmode : modeSelect (tableOf input).length input.length with
  | grouped =>
    have hshort := (modeSelect_grouped_iff _ _).mp hmode
    exact min_eq_left (by omega)
  | raw =>
    have hshort := (modeSelect_raw_iff _ _).mp hmode
    exact min_eq_right (by omega)

end Sys2Proof.Machine

/-! SUPPORT. B64_ENCODE undoes the strict decoder on a canonical token, quantum by quantum: the 24 bits of a quantum's characters
are those of its bytes, the bytes it lacks being 0 (R129(d)), and the characters are those bits' sextets (R121). -/

namespace Sys2Proof.Machine

/-- The encoder writes a quantum of characters again, a character of the alphabet at a time. -/
theorem sextetChar_quantumOfChars {c0 c1 : Byte} (h0 : inAlphabet c0 = true) (h1 : inAlphabet c1 = true) (c2 c3 : Byte) :
    sextetChar (quantumOfChars c0 c1 c2 c3) 3 = c0 ∧ sextetChar (quantumOfChars c0 c1 c2 c3) 2 = c1 ∧
      (inAlphabet c2 = true → sextetChar (quantumOfChars c0 c1 c2 c3) 1 = c2) ∧
      (inAlphabet c3 = true → sextetChar (quantumOfChars c0 c1 c2 c3) 0 = c3) := by
  have l0 := sextet_lt c0
  have l1 := sextet_lt c1
  have l2 := sextet_lt c2
  have l3 := sextet_lt c3
  refine ⟨sextetChar_eq _ _ _ h0 ?_, sextetChar_eq _ _ _ h1 ?_, fun h2 => sextetChar_eq _ _ _ h2 ?_,
    fun h3 => sextetChar_eq _ _ _ h3 ?_⟩ <;> unfold quantumOfChars <;> omega

/-- The low bytes of a quantum are 0 where its low bits are. -/
theorem quantumByte_zero_of_mod {n : Nat} (h : n % 2 ^ 8 = 0) : quantumByte n 0 = 0 := by
  rw [quantumByte, show n / 2 ^ (8 * 0) % 256 = 0 by omega]; rfl

theorem quantumByte_one_of_mod {n : Nat} (h : n % 2 ^ 16 = 0) : quantumByte n 1 = 0 := by
  rw [quantumByte, show n / 2 ^ (8 * 1) % 256 = 0 by omega]; rfl

/-- A quantum without pad characters, encoded from its three bytes. -/
theorem b64Encode_quantumBytes_noPad {c0 c1 c2 c3 : Byte} (h0 : inAlphabet c0 = true) (h1 : inAlphabet c1 = true)
    (h2 : inAlphabet c2 = true) (h3 : inAlphabet c3 = true) (rest : List Byte) :
    b64Encode (quantumBytes 0 c0 c1 c2 c3 ++ rest) = c0 :: c1 :: c2 :: c3 :: b64Encode rest := by
  have hbits := quantumOfBytes_quantumBytes _ (quantumOfChars_lt c0 c1 c2 c3)
  obtain ⟨e0, e1, e2, e3⟩ := sextetChar_quantumOfChars h0 h1 c2 c3
  change b64Encode (quantumByte _ 2 :: quantumByte _ 1 :: quantumByte _ 0 :: rest) = _
  simp only [b64Encode, hbits, e0, e1, e2 h2, e3 h3]

/-- A quantum with one pad character, encoded from its two bytes: its third byte's bits are 0. -/
theorem b64Encode_quantumBytes_onePad {c0 c1 c2 : Byte} (h0 : inAlphabet c0 = true) (h1 : inAlphabet c1 = true)
    (h2 : inAlphabet c2 = true) (hlow : sextet c2 % 4 = 0) :
    b64Encode (quantumBytes 1 c0 c1 c2 padChar) = [c0, c1, c2, padChar] := by
  have hzero : quantumByte (quantumOfChars c0 c1 c2 padChar) 0 = 0 := by
    apply quantumByte_zero_of_mod
    rw [quantumOfChars, sextet_padChar]; omega
  have hbits := quantumOfBytes_quantumBytes _ (quantumOfChars_lt c0 c1 c2 padChar)
  obtain ⟨e0, e1, e2, -⟩ := sextetChar_quantumOfChars h0 h1 c2 padChar
  rw [hzero] at hbits
  change b64Encode [quantumByte _ 2, quantumByte _ 1] = _
  simp only [b64Encode, hbits, e0, e1, e2 h2]

/-- A quantum with two pad characters, encoded from its one byte: its second and third bytes' bits are 0. -/
theorem b64Encode_quantumBytes_twoPads {c0 c1 : Byte} (h0 : inAlphabet c0 = true) (h1 : inAlphabet c1 = true)
    (hlow : sextet c1 % 16 = 0) :
    b64Encode (quantumBytes 2 c0 c1 padChar padChar) = [c0, c1, padChar, padChar] := by
  have hmod : quantumOfChars c0 c1 padChar padChar % 2 ^ 16 = 0 := by
    rw [quantumOfChars, sextet_padChar]; omega
  have hbits := quantumOfBytes_quantumBytes _ (quantumOfChars_lt c0 c1 padChar padChar)
  obtain ⟨e0, e1, -, -⟩ := sextetChar_quantumOfChars h0 h1 padChar padChar
  rw [quantumByte_one_of_mod hmod, quantumByte_zero_of_mod (by omega)] at hbits
  change b64Encode [quantumByte _ 2] = _
  simp only [b64Encode, hbits, e0, e1]

/-- The last quantum of a canonical token, in each of its three forms (R129(c)). -/
theorem b64Encode_strictBytes_lastQuantum {c0 c1 c2 c3 : Byte} (h : lastQuantumOk c0 c1 c2 c3 = true) :
    b64Encode (strictBytes [c0, c1, c2, c3]) = [c0, c1, c2, c3] := by
  obtain ⟨h0, h1, hpad | ⟨hpad, hlow⟩ | ⟨hpad, hlow⟩⟩ := (lastQuantumOk_iff _ _ _ _).mp h
  · obtain ⟨h2, h3⟩ := (padCount_eq_zero _ _).mp hpad
    rw [strictBytes_fullQuantum _ _ h2 h3, b64Encode_quantumBytes_noPad h0 h1 h2 h3]; rfl
  · obtain ⟨h2, rfl⟩ := (padCount_eq_one _ _).mp hpad
    rw [strictBytes, hpad]
    exact b64Encode_quantumBytes_onePad h0 h1 h2 hlow
  · obtain ⟨rfl, rfl⟩ := (padCount_eq_two _ _).mp hpad
    rw [strictBytes, hpad]
    exact b64Encode_quantumBytes_twoPads h0 h1 hlow

end Sys2Proof.Machine

/-! SUPPORT. What a DECODE does after B64_DECODE: it ends with the error, runs the frame in the payload, or finds no mode flag
(42_base64.md R130, R131; 43_unpack_field_decode.md R142). -/

namespace Sys2Proof.Machine

open Sys2Proof

/-- A token that is not canonical, under each policy (R128). -/
theorem b64Decode_strict {cfg : Config.Cfg} {token : List Byte} (hpolicy : cfg.decodePolicy = .strict)
    (hc : canonical token = false) : b64Decode cfg token = .error (.raised .format) := by
  rw [b64Decode, hc, hpolicy]; rfl

theorem b64Decode_reference {cfg : Config.Cfg} {token : List Byte} (hpolicy : cfg.decodePolicy = .reference)
    (hc : canonical token = false) : b64Decode cfg token = .ok (Config.lenientB64 token) := by
  rw [b64Decode, hc, hpolicy]; rfl

/-- A DECODE within capacity, whose token B64_DECODE refuses, ends with that error (R161, R188(b)). -/
theorem exec_decode_of_b64Decode_error {s : State} {token : List Byte} {e : Err}
    (hf : Fits s.cfg.maxTokenLen token.length) (he : b64Decode s.cfg token = .error (.raised e)) :
    exec (.decode token) s = .next (s.raiseError 1 e) := by
  simp only [exec, execDecode, decodeWork, checkCapacity_fits hf, he]; rfl

/-- Under `Reference` a stream of no bits has the raw mode and no values (R142). -/
theorem fieldDecode_nil_reference {cfg : Config.Cfg} (hpolicy : cfg.decodePolicy = .reference) :
    fieldDecode cfg [] = .ok { mode := .raw, pos := 0, out := [] } := by
  rw [fieldDecode, hpolicy, streamMode_nil]

/-- A DECODE within capacity, whose token has a well-formed frame's payload, runs the frame (R16, R143). -/
theorem exec_decode_of_frame {s : State} {token p : List Byte} {i : Instr} (hf : Fits s.cfg.maxTokenLen token.length)
    (hp : b64Decode s.cfg token = .ok p) (hwf : i.wf = true) (hi : encode i = .payload p) :
    exec (.decode token) s = exec i s := by
  obtain rfl : payloadOf (encode i) = p := congrArg payloadOf hi
  rw [exec_decode_of_payload hf hp]
  cases i with
  | encode values => cases hi
  | decode token => cases hi
  | groupedFrame pairs tail =>
    obtain ⟨htail, -⟩ := (wf_grouped_iff pairs tail).mp hwf
    rw [bitUnpack_payloadOf_grouped hwf, fieldDecode_grouped _ _ _ htail, finishFrame_of_trailing]
    rfl
  | rawFrame values tail =>
    obtain ⟨htail, -⟩ := (wf_raw_iff values tail).mp hwf
    rw [bitUnpack_payloadOf_raw hwf, fieldDecode_raw _ _ _ htail, finishFrame_of_trailing]
    rfl

/-- Every non-empty payload is one frame (R70), and the DECODE whose token has that payload runs it. -/
theorem exec_decode_runs_frame {s : State} {token p : List Byte} (hf : Fits s.cfg.maxTokenLen token.length)
    (hp : b64Decode s.cfg token = .ok p) (hne : p ≠ []) :
    ∃ i, decodePayload p = .ok i ∧ i.wf = true ∧ exec (.decode token) s = exec i s := by
  obtain ⟨i, hdecode, hwf, hencode⟩ := everyNonEmptyPayloadIsOneFrame p hne
  exact ⟨i, hdecode, hwf, exec_decode_of_frame hf hp hwf hencode⟩

end Sys2Proof.Machine

/-! The statements of 42_base64.md. -/

namespace Sys2Proof.Machine

open Sys2Proof

/-- Settles O17, three bytes at a time: four characters for each whole quantum, and four for a last one of one or two bytes. -/
theorem tokenLengthIsFourPerThreeBytes : Obligations.TokenLengthIsFourPerThreeBytes := by
  intro p
  induction p using b64Encode.induct with
  | case1 => rfl
  | case2 b0 => simp [b64Encode]
  | case3 b0 b1 => simp [b64Encode]
  | case4 b0 b1 b2 rest ih => simp only [b64Encode, List.length_cons, ih]; omega

/-- Settles O18. -/
theorem encodedTokenIsCanonicalAndDecodesBack : Obligations.EncodedTokenIsCanonicalAndDecodesBack :=
  fun p => ⟨canonical_b64Encode p, strictBytes_b64Encode p⟩

/-- Settles O19, by induction on the quanta: every quantum but the last has no pad character. -/
theorem canonicalTokenIsTheOnlySpelling : Obligations.CanonicalTokenIsTheOnlySpelling := by
  intro t hc
  induction t using canonical.induct with
  | case1 => rfl
  | case2 c0 c1 c2 c3 => exact b64Encode_strictBytes_lastQuantum hc
  | case3 c0 c1 c2 c3 rest hne ih =>
    simp only [canonical, Bool.and_eq_true] at hc
    obtain ⟨⟨⟨⟨h0, h1⟩, h2⟩, h3⟩, hrest⟩ := hc
    rw [strictBytes_fullQuantum _ _ h2 h3, b64Encode_quantumBytes_noPad h0 h1 h2 h3, ih hrest]
  | case4 t hnil hlast hmore => simp [canonical] at hc

/-- Settles O45: the lenient payload is one frame, which the DECODE runs, or has no bytes and so no mode flag. -/
theorem referenceDecodesTheLenientPayload : Obligations.ReferenceDecodesTheLenientPayload := by
  intro s token hpolicy hf hc
  have hp := b64Decode_reference hpolicy hc
  refine ⟨fun hempty => ?_, exec_decode_runs_frame hf hp⟩
  rw [exec_decode_of_payload hf hp, hempty, bitUnpack_nil, fieldDecode_nil_reference hpolicy]
  rfl

/-- Settles O20: the table evaluated; an octet with an index is in the alphabet, whose characters `enc64` gives back. -/
theorem alphabetIsTheStandardOne : Obligations.AlphabetIsTheStandardOne := by
  refine ⟨by decide, fun o i hi => ?_, by decide, by decide⟩
  have hmem : inAlphabet o = true := by rw [inAlphabet, hi]; rfl
  obtain rfl : sextet o = i := by rw [sextet, hi]; rfl
  exact ⟨sextet_lt o, enc64_sextet o hmem⟩

/-- Settles O44: within capacity B64_DECODE is the first unit to raise. -/
theorem strictRejectsEveryOtherToken : Obligations.StrictRejectsEveryOtherToken := by
  intro s token hpolicy hf hc
  exact exec_decode_of_b64Decode_error hf (b64Decode_strict hpolicy hc)

end Sys2Proof.Machine

/-! SUPPORT. The ways a frame ends by policy and remainder, and the partial field a raw frame's remainder is read as
(43_unpack_field_decode.md R140, R141, R144, R145). -/

namespace Sys2Proof.Machine

open Sys2Proof

/-- A stream of whole bytes is packed without padding (R65, R110). -/
theorem bitPack_of_whole {bs : BitStream} (h : bs.length % 8 = 0) : bitPack bs = packBytes bs := by
  have hpad : padLength bs.length = 0 := by simp [padLength, h]
  rw [bitPack, hpad, List.replicate_zero, List.append_nil]

/-- A field that the end of the stream cuts short has the bits left as its high bits and zeros below (R141). -/
theorem readField_partial (before tail : BitStream) {w : Nat} (h : tail.length ≤ w) :
    readField (before ++ tail) before.length w = fieldValue tail * 2 ^ (w - tail.length) := by
  rw [readField_window, List.drop_left, List.take_of_length_le h, List.length_append, Nat.add_sub_cancel_left,
    fieldValue_append, fieldValue_zeros, List.length_replicate, Nat.add_zero]

section Finish
variable {cfg : Config.Cfg} {tail : BitStream} {len pos : Nat} {mode : Mode} {out : List Nat}

/-- Under `Strict` valid padding adds nothing (R144). -/
theorem finishFrame_strict_valid (hpolicy : cfg.decodePolicy = .strict) (hvalid : ValidPadding tail) :
    finishFrame cfg len tail mode out = .ok (.naturals (trimZeros out)) := by
  simp only [finishFrame, trailing, hpolicy, trailingStrict_valid _ _ _ hvalid]
  rfl

/-- Under `Strict` any other remainder raises, with the stream's length and where the remainder starts (R144, R185). -/
theorem finishFrame_strict_invalid (hpolicy : cfg.decodePolicy = .strict) (hinvalid : ¬ ValidPadding tail) :
    finishFrame cfg (pos + tail.length) tail mode out =
      .error (.raised (.truncatedStream (pos + tail.length) pos)) := by
  simp only [finishFrame, trailing, hpolicy, trailingStrict_invalid _ _ _ hinvalid, Nat.add_sub_cancel]
  rfl

/-- Under `Reference` every remainder passes, with what it adds (R145). -/
theorem finishFrame_reference (hpolicy : cfg.decodePolicy = .reference) :
    finishFrame cfg len tail mode out = .ok (.naturals (trimZeros (out ++ trailingReference mode tail))) := by
  simp only [finishFrame, trailing, hpolicy]
  rfl

end Finish

/-- A raw frame's remainder adds one zero-filled value, where any bit remains (R145). -/
theorem trailingReference_raw {tail : BitStream} (h : tail.length ≤ 9) :
    trailingReference .raw tail = if tail = [] then [] else [fieldValue tail * 2 ^ (9 - tail.length)] := by
  have hfield : readField tail 0 9 = fieldValue tail * 2 ^ (9 - tail.length) := readField_partial [] tail h
  simp only [trailingReference, List.isEmpty_iff, hfield]

/-- The empty token is canonical and fits every capacity, so its DECODE ends as FIELD_DECODE of no bits does (R142). -/
theorem exec_decode_nil (s : State) :
    exec (.decode []) s = s.endCommand 1 ((fieldDecode s.cfg []).map fun f => .naturals (trimZeros f.out)) := by
  have hfits : Fits s.cfg.maxTokenLen ([] : List Byte).length := fun m _ => Nat.zero_le m
  exact exec_decode_of_payload hfits (b64Decode_b64Encode s.cfg [])

/-- Under `Strict` a stream of no bits raises (R142, R144). -/
theorem fieldDecode_nil_strict {cfg : Config.Cfg} (hpolicy : cfg.decodePolicy = .strict) :
    fieldDecode cfg [] = .error (.raised (.truncatedStream 0 0)) := by
  rw [fieldDecode, hpolicy]
  rfl

/-! The statements of 43_unpack_field_decode.md. -/

/-- Settles O15: what was packed has whole bytes, and what was unpacked is whole bytes and so takes no padding. -/
theorem packAndUnpackAreInverse : Obligations.PackAndUnpackAreInverse := by
  refine ⟨bitUnpack_bitPack, fun p => ?_⟩
  have hwhole : (bitUnpack p).length % 8 = 0 := by rw [bitUnpack_length, Nat.mul_mod_right]
  rw [bitPack_of_whole hwhole, packBytes_bitUnpack]

/-- Settles O28: a field's bits make its number again, and a partial field's are filled up with zeros. -/
theorem readFieldReadsWhatWasEmitted : Obligations.ReadFieldReadsWhatWasEmitted := by
  refine ⟨fun before after v w hv => ?_, fun before v r w hr hv => ?_⟩
  · have hread := readField_append before (natBits w v) after
    rwa [natBits_length, fieldValue_natBits, Nat.mod_eq_of_lt hv] at hread
  · have hread := readField_partial before (natBits r v) (w := w) ((natBits_length r v).trans_le hr)
    rwa [natBits_length, fieldValue_natBits, Nat.mod_eq_of_lt hv] at hread

/-- Settles O47, by induction from the end of the sequence: a 0 there is trimmed, any other number ends the trim. -/
theorem trimRemovesTrailingZerosOnly : Obligations.TrimRemovesTrailingZerosOnly := by
  intro out
  induction out using List.reverseRecOn with
  | nil => exact ⟨0, rfl, nofun⟩
  | append_singleton out n ih =>
    rcases eq_or_ne n 0 with rfl | hn
    · obtain ⟨k, hout, hlast⟩ := ih
      rw [trimZeros_snoc_zero]
      exact ⟨k + 1, by rw [List.replicate_succ', ← List.append_assoc, ← hout], hlast⟩
    · have hlast : (out ++ [n]).getLast? ≠ some 0 := by simpa using hn
      rw [trimZeros_of_last _ hlast]
      exact ⟨0, (List.append_nil _).symm, hlast⟩

/-- Settles O38: a grouped frame's remainder adds nothing, where it passes. -/
theorem groupedFrameAnswersItsValues : Obligations.GroupedFrameAnswersItsValues := by
  intro s pairs tail hpass
  have hfinish : finishFrame s.cfg (groupedBits pairs tail) tail .grouped
      (pairs.flatMap fun p => List.replicate p.2.toNat p.1.toNat) =
        .ok (.naturals (trimZeros (pairs.flatMap fun p => List.replicate p.2.toNat p.1.toNat))) := by
    cases hpolicy : s.cfg.decodePolicy with
    | reference => rw [finishFrame_reference hpolicy, trailingReference, List.append_nil]
    | strict => exact finishFrame_strict_valid hpolicy (hpass.resolve_left (by simp [hpolicy]))
  exact congrArg (s.endCommand 1) hfinish

/-- Settles O39: under `Reference` the remainder's bits are read as one more value, zero-filled. -/
theorem rawFrameAnswersItsValues : Obligations.RawFrameAnswersItsValues := by
  intro s values tail
  refine ⟨fun hpolicy hvalid => congrArg (s.endCommand 1) (finishFrame_strict_valid hpolicy hvalid),
    fun hpolicy htail => ?_⟩
  rw [← trailingReference_raw htail.le]
  exact congrArg (s.endCommand 1) (finishFrame_reference hpolicy)

/-- Settles O40: either frame's remainder starts behind the mode flag and the whole fields. -/
theorem badRemainderRaisesTruncatedStreamError : Obligations.BadRemainderRaisesTruncatedStreamError := by
  intro s tail hpolicy hinvalid
  exact ⟨fun pairs => congrArg (s.endCommand 1) (finishFrame_strict_invalid hpolicy hinvalid),
    fun values => congrArg (s.endCommand 1) (finishFrame_strict_invalid hpolicy hinvalid)⟩

/-- Settles O43: the empty token's payload has no bits, and so no mode flag. -/
theorem emptyTokenByPolicy : Obligations.EmptyTokenByPolicy := by
  intro s
  refine ⟨fun hpolicy => ?_, fun hpolicy => ?_⟩
  · rw [exec_decode_nil, fieldDecode_nil_strict hpolicy]; rfl
  · rw [exec_decode_nil, fieldDecode_nil_reference hpolicy]; rfl

/-- Settles O49: the token carries the raw frame of the four values left, whose remainder of three zeros is valid padding:
`Strict` cannot tell it from a frame that ENCODE made. -/
theorem strictMissesACutPayload : Obligations.StrictMissesACutPayload := by
  have hpayload : encode (.rawFrame [3, 1, 4, 1] [false, false, false]) = .payload [0x00, 0xC0, 0x20, 0x40, 0x08] := by
    decide
  have htoken : b64Encode [0x00, 0xC0, 0x20, 0x40, 0x08] = [0x41, 0x4D, 0x41, 0x67, 0x51, 0x41, 0x67, 0x3D] := by decide
  have hdecode : b64Decode State.reset.cfg [0x41, 0x4D, 0x41, 0x67, 0x51, 0x41, 0x67, 0x3D] =
      .ok [0x00, 0xC0, 0x20, 0x40, 0x08] := by rw [← htoken, b64Decode_b64Encode]
  obtain ⟨hstrict, -⟩ := rawFrameAnswersItsValues State.reset [3, 1, 4, 1] [false, false, false]
  have hfits : Fits State.reset.cfg.maxTokenLen 8 := nofun
  exact ⟨htoken, (exec_decode_of_frame hfits hdecode (by decide) hpayload).trans
    (hstrict rfl ⟨by decide, by decide⟩)⟩

end Sys2Proof.Machine

/-! SUPPORT. The frame that the spec lays out for an input is the frame in an ENCODE's payload: its stream bits are FIELD_ENCODE's
stream and the padding (30_encoding.md R63, R64; 41_field_encode_pack.md R102, R110). -/

namespace Sys2Proof.Machine

open Sys2Proof

/-- The mode an ENCODE chooses, as the frame's condition (R90). -/
theorem modeSelect_tableOf_grouped_iff (input : List Int) :
    modeSelect (tableOf input).length input.length = .grouped ↔ distinctCount input * 19 < input.length * 9 := by
  rw [modeSelect_grouped_iff, tableOf_length, distinctCount]; omega

theorem modeSelect_tableOf_raw_iff (input : List Int) :
    modeSelect (tableOf input).length input.length = .raw ↔ ¬ distinctCount input * 19 < input.length * 9 := by
  rw [modeSelect_raw_iff, tableOf_length, distinctCount]; omega

/-- The pairs of an input's grouped frame (R63, R102). -/
def framePairs (input : List Int) : List (ValueField × CountField) :=
  input.eraseDups.map fun v => (BitVec.ofInt _ v, BitVec.ofNat _ (input.count v))

/-- The values of an input's raw frame (R64). -/
def frameValues (input : List Int) : List ValueField := input.map fun v => BitVec.ofInt _ v

theorem frameFor_grouped {input : List Int} (h : modeSelect (tableOf input).length input.length = .grouped) :
    frameFor input = .groupedFrame (framePairs input) (zeroPad (1 + 19 * (framePairs input).length)) := by
  rw [frameFor_eq, if_pos ((modeSelect_tableOf_grouped_iff input).mp h), framePairs, List.length_map]
  rfl

theorem frameFor_raw {input : List Int} (h : modeSelect (tableOf input).length input.length = .raw) :
    frameFor input = .rawFrame (frameValues input) (zeroPad (1 + 9 * (frameValues input).length)) := by
  rw [frameFor_eq, if_neg ((modeSelect_tableOf_raw_iff input).mp h), frameValues, List.length_map]

theorem zeroPad_length (len : Nat) : (zeroPad len).length = padLength len := List.length_replicate

/-- The padding of `len` bits is valid, and fills them up to whole bytes (R65, R144). -/
theorem validPadding_zeroPad (len : Nat) : ValidPadding (zeroPad len) :=
  ⟨(zeroPad_length len).trans_lt (padLength_lt len), fun _ hb => List.eq_of_mem_replicate hb⟩

theorem zeroPad_whole (len : Nat) : (len + (zeroPad len).length) % 8 = 0 := by
  rw [zeroPad_length, padLength_whole]

/-- The frame for an input is well formed, whatever the input holds. -/
theorem frameFor_wf (input : List Int) : (frameFor input).wf = true := by
  have hshort (len : Nat) : (zeroPad len).length < 8 := (validPadding_zeroPad len).1
  cases hmode : modeSelect (tableOf input).length input.length with
  | grouped =>
    rw [frameFor_grouped hmode, wf_grouped_iff]
    exact ⟨(hshort _).trans (by decide), zeroPad_whole _⟩
  | raw =>
    rw [frameFor_raw hmode, wf_raw_iff]
    exact ⟨(hshort _).trans (by decide), zeroPad_whole _⟩

/-- A legal value is not changed by its field (R5, R68). -/
theorem toNat_ofInt_of_legal {x : Int} (h : legalValue x = true) : (BitVec.ofInt Config.valueBits x).toNat = x.toNat := by
  obtain ⟨hlo, hhi⟩ := (legalValue_iff x).mp h
  rw [BitVec.toNat_ofInt, Config.valueBits]
  omega

/-- The pairs' bits are the table's entries' bits (R63, R103). -/
theorem framePairs_bits {input : List Int} (h : ∀ x ∈ input, legalValue x = true) :
    (framePairs input).flatMap pairBits = (tableOf input).flatMap entryBits := by
  rw [framePairs, tableOf, List.flatMap_map, List.flatMap_map]
  refine List.flatMap_congr fun v hv => ?_
  rw [pairBits, toNat_ofInt_of_legal (h v (List.mem_eraseDups.mp hv)), BitVec.toNat_ofNat]
  rfl

/-- The values' bits are the elements' bits (R64, R103). -/
theorem frameValues_bits {input : List Int} (h : ∀ x ∈ input, legalValue x = true) :
    (frameValues input).flatMap valueBitsOf = input.flatMap fun x => natBits Config.valueBits x.toNat := by
  rw [frameValues, List.flatMap_map]
  refine List.flatMap_congr fun v hv => ?_
  rw [valueBitsOf, toNat_ofInt_of_legal (h v hv)]

/-- The code of a legal input's frame is the payload that BIT_PACK makes of FIELD_ENCODE's stream (R63, R64, R110). -/
theorem encode_frameFor {input : List Int} (h : ∀ x ∈ input, legalValue x = true) :
    encode (frameFor input) = .payload (bitPack (streamOf input)) := by
  cases hmode : modeSelect (tableOf input).length input.length with
  | grouped =>
    have hlen : 1 + 19 * (framePairs input).length = (streamOf input).length := by
      rw [streamOf_grouped hmode, length_flag_blocks entryBits_length, framePairs, tableOf_length, List.length_map]
    rw [frameFor_grouped hmode, hlen, encode, frameBits_grouped, framePairs_bits h, ← List.cons_append,
      ← streamOf_grouped hmode]
    rfl
  | raw =>
    have hlen : 1 + 9 * (frameValues input).length = (streamOf input).length := by
      have hwidth (x : Int) : (natBits Config.valueBits x.toNat).length = 9 := natBits_length _ _
      rw [streamOf_raw hmode, length_flag_blocks hwidth, frameValues, List.length_map]
    rw [frameFor_raw hmode, hlen, encode, frameBits_raw, frameValues_bits h, ← List.cons_append, ← streamOf_raw hmode]
    rfl

/-- The token an ENCODE works out is the token of the input's frame (R160). -/
theorem encodedWork_t {input : List Int} (h : ∀ x ∈ input, legalValue x = true) :
    (encodedWork input).t = tokenOf (frameFor input) := by
  rw [tokenOf, encode_frameFor h]
  rfl

/-! SUPPORT. The two ends of an ENCODE that succeeds (44_commands.md R160): when its units all answer, and what it was called
with where they did. -/

/-- Within capacity the units of an ENCODE answer on a legal input whose counts fit, or wrap (R81, R102, R187). -/
theorem encodeWork_of_legal {cfg : Config.Cfg} {input : List Int} (hf : Fits cfg.maxInputLen input.length)
    (hlegal : ∀ x ∈ input, legalValue x = true)
    (hcounts : cfg.countOverflowPolicy = .wrap ∨ ∀ v ∈ input, input.count v ≤ 1023) :
    encodeWork cfg input = .ok (encodedWork input) := by
  rcases encodeWork_cases cfg input with
    ⟨m, hm, hlt, -⟩ | ⟨-, ⟨_, x, _, rfl, -, hx, -⟩ | ⟨-, ⟨e, hreject, -, hfind, -⟩ | ⟨-, hok⟩⟩⟩
  · exact absurd (hf m hm) (by omega)
  · exact absurd (hlegal x (by simp)) (by simp [hx])
  · obtain ⟨hmem, hcount⟩ := of_mem_tableOf (List.mem_of_find?_eq_some hfind)
    have hlarge : 1024 ≤ e.count := by simpa using List.find?_some hfind
    have hsmall := hcounts.resolve_left (by simp [hreject]) e.value hmem
    omega
  · exact hok

/-- An error's status is not 0 (R181). -/
theorem Err.status_code_ne_zero (e : Err) : e.status.code ≠ 0 := by
  cases e <;> simp [Err.status, Status.code]

/-- A command that ended with status 0 had its units' answer (R181, R186). -/
theorem units_ok_of_status_zero {i : Instr} {s t : State} (h : exec i s = .next t) (hs : t.res.status = 0) :
    ∃ out, unitsAnswer s.cfg i = .ok out ∧ t = s.endWith (.success (commandFor i).op out) := by
  rw [exec_eq_endCommand] at h
  rcases s.endCommand_eq (commandFor i).op (unitsAnswer s.cfg i) with ⟨out, hr, he⟩ | ⟨e, -, he⟩ | ⟨f, -, he⟩
  · cases h.symm.trans he
    exact ⟨out, hr, rfl⟩
  · cases h.symm.trans he
    exact absurd hs e.status_code_ne_zero
  · cases h.symm.trans he

/-- A map over a unit's answer answers only where the unit does. -/
theorem unit_map_ok {α β : Type} {x : UnitResult α} {f : α → β} {r : β} (h : x.map f = .ok r) :
    ∃ a, x = .ok a ∧ f a = r := by
  cases x with
  | error e => cases h
  | ok a => cases h; exact ⟨a, rfl, rfl⟩

/-- An ENCODE that succeeded answered the token of its input's frame, and the input passed every check (R160). -/
theorem exec_encode_success {s t : State} {input : List Int} (h : exec (.encode input) s = .next t)
    (hs : t.res.status = 0) :
    t.res.out = .octets (tokenOf (frameFor input)) ∧ (∀ x ∈ input, legalValue x = true) ∧
      (modeSelect (tableOf input).length input.length = .raw ∨ s.cfg.countOverflowPolicy = .wrap ∨
        ∀ e ∈ tableOf input, e.count ≤ 1023) := by
  obtain ⟨_, hunits, rfl⟩ := units_ok_of_status_zero h hs
  obtain ⟨w, hwork, rfl⟩ := unit_map_ok hunits
  obtain ⟨rfl, hlegal, hcounts⟩ := encodeWork_ok hwork
  exact ⟨congrArg Output.octets (encodedWork_t hlegal), hlegal, hcounts⟩

/-! SUPPORT. What the frame of a legal input answers, and so the DECODE of its token (43_unpack_field_decode.md R143 to R146;
44_commands.md R163). -/

/-- Valid padding adds nothing to the output that is not trimmed again, under either policy (R144 to R146). -/
theorem finishFrame_validPadding (cfg : Config.Cfg) (len : Nat) {tail : BitStream} (mode : Mode) (out : List Nat)
    (h : ValidPadding tail) : finishFrame cfg len tail mode out = .ok (.naturals (trimZeros out)) := by
  cases hpolicy : cfg.decodePolicy with
  | strict => exact finishFrame_strict_valid hpolicy h
  | reference =>
    rw [finishFrame_reference hpolicy]
    cases mode with
    | grouped => rw [trailingReference, List.append_nil]
    | raw =>
      obtain ⟨hlen, hzero⟩ := h
      have hvalue : fieldValue tail = 0 := by
        rw [List.eq_replicate_of_mem hzero, fieldValue_zeros]
      rw [trailingReference_raw (hlen.le.trans (by decide)), hvalue, Nat.zero_mul]
      split
      · rw [List.append_nil]
      · rw [trimZeros_snoc_zero]

theorem decodedOf_grouped {input : List Int} (h : modeSelect (tableOf input).length input.length = .grouped) :
    decodedOf input = input.eraseDups.flatMap fun v => List.replicate (input.count v % 1024) v.toNat := by
  rw [decodedOf_eq, if_pos ((modeSelect_tableOf_grouped_iff input).mp h)]

theorem decodedOf_raw {input : List Int} (h : modeSelect (tableOf input).length input.length = .raw) :
    decodedOf input = input.map Int.toNat := by
  rw [decodedOf_eq, if_neg ((modeSelect_tableOf_raw_iff input).mp h)]

/-- What a grouped frame's pairs say, and what a raw frame's values are (R163). -/
theorem framePairs_values {input : List Int} (h : ∀ x ∈ input, legalValue x = true) :
    ((framePairs input).flatMap fun p => List.replicate p.2.toNat p.1.toNat) =
      input.eraseDups.flatMap fun v => List.replicate (input.count v % 1024) v.toNat := by
  rw [framePairs, List.flatMap_map]
  refine List.flatMap_congr fun v hv => ?_
  rw [toNat_ofInt_of_legal (h v (List.mem_eraseDups.mp hv)), BitVec.toNat_ofNat]
  rfl

theorem frameValues_values {input : List Int} (h : ∀ x ∈ input, legalValue x = true) :
    ((frameValues input).map fun v => v.toNat) = input.map Int.toNat := by
  rw [frameValues, List.map_map]
  exact List.map_congr_left fun v hv => toNat_ofInt_of_legal (h v hv)

/-- Every value a token decodes to is an element of its input. -/
theorem exists_of_mem_decodedOf {input : List Int} {n : Nat} (h : n ∈ decodedOf input) : ∃ v ∈ input, v.toNat = n := by
  cases hmode : modeSelect (tableOf input).length input.length with
  | grouped =>
    rw [decodedOf_grouped hmode] at h
    obtain ⟨v, hv, hn⟩ := List.mem_flatMap.mp h
    exact ⟨v, List.mem_eraseDups.mp hv, (List.eq_of_mem_replicate hn).symm⟩
  | raw =>
    rw [decodedOf_raw hmode] at h
    exact List.mem_map.mp h

/-- No legal value is 0, so nothing of a legal input is trimmed (R146, R163). -/
theorem trimZeros_decodedOf {input : List Int} (h : ∀ x ∈ input, legalValue x = true) :
    trimZeros (decodedOf input) = decodedOf input := by
  refine trimZeros_of_last _ fun hlast => ?_
  obtain ⟨v, hv, hzero⟩ := exists_of_mem_decodedOf (List.mem_of_getLast? hlast)
  obtain ⟨hlo, -⟩ := (legalValue_iff v).mp (h v hv)
  omega

/-- The frame of a legal input answers the input's values, under either policy. -/
theorem exec_frameFor {input : List Int} (h : ∀ x ∈ input, legalValue x = true) (s : State) :
    exec (frameFor input) s = .next (s.succeed 1 (.naturals (decodedOf input))) := by
  rw [← trimZeros_decodedOf h]
  cases hmode : modeSelect (tableOf input).length input.length with
  | grouped =>
    rw [frameFor_grouped hmode, decodedOf_grouped hmode, ← framePairs_values h]
    exact congrArg (s.endCommand 1) (finishFrame_validPadding _ _ _ _ (validPadding_zeroPad _))
  | raw =>
    rw [frameFor_raw hmode, decodedOf_raw hmode, ← frameValues_values h]
    exact congrArg (s.endCommand 1) (finishFrame_validPadding _ _ _ _ (validPadding_zeroPad _))

/-- Within capacity the token of a legal input's frame decodes to the input's values, under either policy (R163). -/
theorem exec_decode_tokenOf_frameFor {input : List Int} (h : ∀ x ∈ input, legalValue x = true) {s : State}
    (hf : Fits s.cfg.maxTokenLen (tokenOf (frameFor input)).length) :
    exec (.decode (tokenOf (frameFor input))) s = .next (s.succeed 1 (.naturals (decodedOf input))) := by
  have hcode : encode (frameFor input) = .payload (payloadOf (encode (frameFor input))) := by rw [encode_frameFor h]; rfl
  exact (exec_decode_of_frame hf (b64Decode_b64Encode _ _) (frameFor_wf input) hcode).trans (exec_frameFor h s)

/-! SUPPORT. How often a value stands in what its input's token decodes to (44_commands.md R163, the multiset law). -/

/-- Distinct values, each repeated, hold each as often as it was repeated. -/
theorem count_flatMap_replicate {l : List Int} (hl : l.Nodup) (f : Int → Nat) (a : Int) :
    (l.flatMap fun v => List.replicate (f v) v).count a = if a ∈ l then f a else 0 := by
  induction l with
  | nil => rfl
  | cons v l ih =>
    obtain ⟨hv, hl⟩ := List.nodup_cons.mp hl
    rw [List.flatMap_cons, List.count_append, ih hl, List.count_replicate]
    rcases eq_or_ne a v with rfl | hne
    · simp [hv]
    · simp [hne, hne.symm]

/-- The elements of a legal input come back from naturals unchanged. -/
theorem natCast_toNat_of_legal {x : Int} (h : legalValue x = true) : ((x.toNat : Nat) : Int) = x :=
  Int.toNat_of_nonneg (legalValue_fits x h).1

/-- In grouped mode the token decodes to the distinct values, each as often as its count modulo 1024 says, as integers. -/
theorem map_natCast_decodedOf_grouped {input : List Int} (h : ∀ x ∈ input, legalValue x = true)
    (hmode : modeSelect (tableOf input).length input.length = .grouped) :
    (decodedOf input).map (fun (n : Nat) => (n : Int)) =
      input.eraseDups.flatMap fun v => List.replicate (input.count v % 1024) v := by
  rw [decodedOf_grouped hmode, List.map_flatMap]
  refine List.flatMap_congr fun v hv => ?_
  rw [List.map_replicate, natCast_toNat_of_legal (h v (List.mem_eraseDups.mp hv))]

/-- In raw mode the token decodes to the input itself. -/
theorem map_natCast_decodedOf_raw {input : List Int} (h : ∀ x ∈ input, legalValue x = true)
    (hmode : modeSelect (tableOf input).length input.length = .raw) :
    (decodedOf input).map (fun (n : Nat) => (n : Int)) = input := by
  rw [decodedOf_raw hmode, List.map_map]
  exact (List.map_congr_left fun x hx => natCast_toNat_of_legal (h x hx)).trans (List.map_id input)

/-- In grouped mode a count loses its multiples of 1024, and nothing else changes. -/
theorem count_map_natCast_decodedOf_grouped {input : List Int} (h : ∀ x ∈ input, legalValue x = true)
    (hmode : modeSelect (tableOf input).length input.length = .grouped) (v : Int) :
    ((decodedOf input).map fun (n : Nat) => (n : Int)).count v = input.count v % 1024 := by
  rw [map_natCast_decodedOf_grouped h hmode, count_flatMap_replicate (nodup_eraseDups input)]
  split
  · rfl
  · next hv => rw [List.count_eq_zero_of_not_mem (mt List.mem_eraseDups.mpr hv)]

/-- Where every count fits its field, the token decodes to the input's own multiset. -/
theorem decodedOf_perm {input : List Int} (h : ∀ x ∈ input, legalValue x = true)
    (hcounts : modeSelect (tableOf input).length input.length = .raw ∨ ∀ e ∈ tableOf input, e.count ≤ 1023) :
    ((decodedOf input).map fun (n : Nat) => (n : Int)).Perm input := by
  cases hmode : modeSelect (tableOf input).length input.length with
  | raw => rw [map_natCast_decodedOf_raw h hmode]
  | grouped =>
    have hfit := hcounts.resolve_left (by rw [hmode]; exact nofun)
    refine List.perm_iff_count.mpr fun v => ?_
    rw [count_map_natCast_decodedOf_grouped h hmode]
    refine Nat.mod_eq_of_lt ?_
    by_cases hv : v ∈ input
    · exact Nat.lt_succ_of_le (hfit _ (List.mem_map_of_mem (List.mem_eraseDups.mpr hv)))
    · simp [List.count_eq_zero_of_not_mem hv]

/-! The statements of 44_commands.md. -/

/-- Settles O50: an ENCODE that succeeded made the token of its input's frame, and the DECODE of that runs the frame; its
units passed, so under `Reject` every count of a grouped frame fits its field. -/
theorem decodeOfEncodeRoundTrip : Obligations.DecodeOfEncodeRoundTrip := by
  intro s t u input token _ hencode hs hout hf
  obtain ⟨htoken, hlegal, hcounts⟩ := exec_encode_success hencode hs
  obtain rfl : token = tokenOf (frameFor input) := Output.octets.inj (hout.symm.trans htoken)
  refine ⟨exec_decode_tokenOf_frameFor hlegal hf, fun hreject => decodedOf_perm hlegal ?_, fun hgrouped v hv => ?_⟩
  · exact hcounts.imp_right fun hfit => hfit.resolve_left (by rw [hreject]; exact nofun)
  · have hmode := (modeSelect_tableOf_grouped_iff input).mpr hgrouped
    have hcount := List.count_map_of_injective (decodedOf input) (fun (n : Nat) => (n : Int)) Nat.cast_injective v.toNat
    rw [natCast_toNat_of_legal (hlegal v hv), count_map_natCast_decodedOf_grouped hlegal hmode] at hcount
    omega

/-- Settles O33: the units all answer, and what they answer is the frame's token. -/
theorem encodeAnswersTheTokenOfItsFrame : Obligations.EncodeAnswersTheTokenOfItsFrame := by
  intro s input hf hall hcounts
  have hlegal := (allLegal_iff_legalValue input).mp hall
  refine exec_encode_of_work ?_
  rw [encodeWork_of_legal hf hlegal hcounts, ← encodedWork_t hlegal]
  rfl

/-- The first bit of an input's stream is its mode flag (R62). -/
theorem streamOf_head? (input : List Int) :
    (streamOf input).head? = some (decide (distinctCount input * 19 < input.length * 9)) := by
  cases hmode : modeSelect (tableOf input).length input.length with
  | grouped => rw [streamOf_grouped hmode, decide_eq_true ((modeSelect_tableOf_grouped_iff input).mp hmode)]; rfl
  | raw => rw [streamOf_raw hmode, decide_eq_false ((modeSelect_tableOf_raw_iff input).mp hmode)]; rfl

/-- Bit 7 of a packed stream's first byte is the stream's first bit (R41). -/
theorem bitPack_head?_testBit {bs : BitStream} {flag : Bool} (h : bs.head? = some flag) :
    (bitPack bs).head?.map (fun b => b.toNat.testBit 7) = some flag := by
  have hbit := getElem?_bitUnpack (bitPack bs) 0
  rw [bitUnpack_bitPack, ← List.head?_eq_getElem?, List.head?_append, h] at hbit
  rw [List.head?_eq_getElem?]
  exact hbit.symm

/-- Settles O37: the strict decoder gives the payload back, whose first bit is the mode flag. -/
theorem modeFlagOfTokenFollowsTheInequality : Obligations.ModeFlagOfTokenFollowsTheInequality := by
  intro s t input token hencode hs hout
  obtain ⟨htoken, hlegal, -⟩ := exec_encode_success hencode hs
  obtain rfl : token = tokenOf (frameFor input) := Output.octets.inj (hout.symm.trans htoken)
  rw [tokenOf, strictBytes_b64Encode, encode_frameFor hlegal]
  exact bitPack_head?_testBit (streamOf_head? input)

/-- Settles O41: a canonical token with no payload would be the empty token. -/
theorem decodeRunsTheFrameOfItsToken : Obligations.DecodeRunsTheFrameOfItsToken := by
  intro s token hf hc hne
  have hpayload : strictBytes token ≠ [] := fun hempty =>
    hne (by rw [← canonicalTokenIsTheOnlySpelling token hc, hempty, b64Encode])
  exact exec_decode_runs_frame hf (if_pos hc) hpayload

/-- Settles O42: DECODE of a frame's token runs the frame, whose answer is O38's or O39's. -/
theorem decodeAnswersTheValuesOfItsFrame : Obligations.DecodeAnswersTheValuesOfItsFrame := by
  intro s tail
  refine ⟨fun pairs hwf hf hpass => ?_, fun values hwf hf hpass => ?_⟩
  · rw [exec_decode_tokenOf_grouped hwf hf]
    exact groupedFrameAnswersItsValues s pairs tail hpass
  · rw [exec_decode_tokenOf_raw hwf hf]
    obtain ⟨hstrict, hreference⟩ := rawFrameAnswersItsValues s values tail
    cases hpolicy : s.cfg.decodePolicy with
    | strict => simpa using hstrict hpolicy (hpass.resolve_left (by simp [hpolicy]))
    | reference => simpa using hreference hpolicy ((wf_raw_iff values tail).mp hwf).1

/-- Under `Reference` FIELD_DECODE answers on every stream (R145). -/
theorem fieldDecode_reference {cfg : Config.Cfg} (hpolicy : cfg.decodePolicy = .reference) (bits : BitStream) :
    ∃ f, fieldDecode cfg bits = .ok f := by
  cases bits with
  | nil => exact ⟨_, fieldDecode_nil_reference hpolicy⟩
  | cons b bits =>
    simp only [fieldDecode, trailing, hpolicy]
    exact ⟨_, rfl⟩

/-- Settles O46: under `Reference` B64_DECODE answers on every token and FIELD_DECODE on every stream. -/
theorem referenceDecodeNeverFails : Obligations.ReferenceDecodeNeverFails := by
  intro s token hpolicy hf
  obtain ⟨p, hp⟩ : ∃ p, b64Decode s.cfg token = .ok p := by
    cases hc : canonical token with
    | true => exact ⟨_, if_pos hc⟩
    | false => exact ⟨_, b64Decode_reference hpolicy hc⟩
  obtain ⟨f, hfields⟩ := fieldDecode_reference hpolicy (bitUnpack p)
  refine ⟨trimZeros f.out, ?_⟩
  rw [exec_decode_of_payload hf hp, hfields]
  rfl

/-- A token over its limit ends DECODE before any unit runs (R187, R188(b)). -/
theorem exec_decode_exceeded {s : State} {token : List Byte} {m : Nat} (hm : s.cfg.maxTokenLen = some m)
    (hlt : m < token.length) : exec (.decode token) s = .next (s.raiseError 1 (.capacity m)) := by
  simp only [exec, execDecode, decodeWork, hm, checkCapacity_exceeded hlt]
  rfl

/-- Settles O51: within capacity the token decodes as in O50; over it, DECODE raises CapacityError before any other. -/
theorem strictAcceptsEveryEncodedToken : Obligations.StrictAcceptsEveryEncodedToken := by
  intro s t u v input token hencode hs hout _ hdecode
  obtain ⟨htoken, hlegal, -⟩ := exec_encode_success hencode hs
  obtain rfl : token = tokenOf (frameFor input) := Output.octets.inj (hout.symm.trans htoken)
  rcases fits_or_exceeded u.cfg.maxTokenLen (tokenOf (frameFor input)).length with hf | ⟨m, hm, hlt⟩
  · cases hdecode.symm.trans (exec_decode_tokenOf_frameFor hlegal hf)
    exact ⟨show (0 : BitVec 3) ≠ 3 by decide, show (0 : BitVec 3) ≠ 4 by decide⟩
  · cases hdecode.symm.trans (exec_decode_exceeded hm hlt)
    exact ⟨show (5 : BitVec 3) ≠ 3 by decide, show (5 : BitVec 3) ≠ 4 by decide⟩

/-- Settles O54: every instruction ends its command with a `RES` of its own OP. -/
theorem commandChangesNothingButRes : Obligations.CommandChangesNothingButRes := by
  intro i s t h
  obtain ⟨res, rfl, hvalid, hop⟩ := exec_next h
  exact ⟨rfl, rfl, rfl, rfl, hvalid, hop⟩

/-! SUPPORT. FIELD_DECODE writes nothing but what it reads from fields of 9 bits (43_unpack_field_decode.md R143, R145). -/

theorem readPairs_lt (bits : BitStream) (fuel pos : Nat) {out : List Nat} (h : ∀ n ∈ out, n < 512) :
    ∀ n ∈ (readPairs bits fuel pos out).2, n < 512 := by
  induction fuel generalizing pos out with
  | zero => exact h
  | succ fuel ih =>
    rw [readPairs_succ]
    split
    · refine ih _ (List.forall_mem_append.mpr ⟨h, fun n hn => ?_⟩)
      rw [List.eq_of_mem_replicate hn]
      exact readField_lt _ _ 9
    · exact h

theorem readValues_lt (bits : BitStream) (fuel pos : Nat) {out : List Nat} (h : ∀ n ∈ out, n < 512) :
    ∀ n ∈ (readValues bits fuel pos out).2, n < 512 := by
  induction fuel generalizing pos out with
  | zero => exact h
  | succ fuel ih =>
    rw [readValues_succ]
    split
    · refine ih _ (List.forall_mem_append.mpr ⟨h, fun n hn => ?_⟩)
      rw [List.mem_singleton.mp hn]
      exact readField_lt _ _ 9
    · exact h

theorem trailingReference_lt (mode : Mode) (tail : BitStream) : ∀ n ∈ trailingReference mode tail, n < 512 := by
  cases mode with
  | grouped => exact nofun
  | raw =>
    rw [trailingReference]
    split
    · exact nofun
    · intro n hn
      rw [List.mem_singleton.mp hn]
      exact readField_lt _ _ 9

theorem trailing_lt {cfg : Config.Cfg} {len pos : Nat} {tail : BitStream} {mode : Mode} {out r : List Nat}
    (h : trailing cfg len pos tail mode out = .ok r) (hout : ∀ n ∈ out, n < 512) : ∀ n ∈ r, n < 512 := by
  rcases trailing_ok h with rfl | rfl
  · exact hout
  · exact List.forall_mem_append.mpr ⟨hout, trailingReference_lt mode tail⟩

theorem fieldDecode_lt {cfg : Config.Cfg} {bits : BitStream} {f : Fields} (h : fieldDecode cfg bits = .ok f) :
    ∀ n ∈ f.out, n < 512 := by
  cases bits with
  | nil =>
    cases hpolicy : cfg.decodePolicy with
    | strict => cases h.symm.trans (fieldDecode_nil_strict hpolicy)
    | reference => cases h.symm.trans (fieldDecode_nil_reference hpolicy); exact nofun
  | cons b bits =>
    obtain ⟨out, htrailing, hf⟩ := unit_bind_ok h
    cases hf
    refine trailing_lt htrailing ?_
    split
    · exact readPairs_lt _ _ _ nofun
    · exact readValues_lt _ _ _ nofun

/-- What a DECODE works out is FIELD_DECODE's output, trimmed (R161). -/
theorem decodeWork_lt {cfg : Config.Cfg} {token : List Byte} {w : DecodeWork} (h : decodeWork cfg token = .ok w) :
    ∀ n ∈ w.out, n < 512 := by
  obtain ⟨_, -, hunits⟩ := unit_bind_ok h
  obtain ⟨p, -, hunits⟩ := unit_bind_ok hunits
  obtain ⟨f, hfields, hw⟩ := unit_bind_ok hunits
  cases hw
  exact fun n hn => fieldDecode_lt hfields n (trimZeros_mem _ _ hn)

/-- The token of an input's frame has at least the character of its mode flag, and whole quanta (R122). -/
theorem tokenOf_frameFor_ne_nil {input : List Int} (h : ∀ x ∈ input, legalValue x = true) :
    tokenOf (frameFor input) ≠ [] := by
  have hlen := tokenLengthIsFourPerThreeBytes (bitPack (streamOf input))
  have hflag := streamOf_length input
  have hbytes := bitPack_length (streamOf input)
  rw [tokenOf, encode_frameFor h]
  refine List.ne_nil_of_length_pos ?_
  rw [payloadOf, hlen]
  omega

/-- Settles O55: B64_ENCODE's tokens are canonical and whole quanta; DECODE's naturals come from fields of 9 bits. -/
theorem successfulResultHasItsForm : Obligations.SuccessfulResultHasItsForm := by
  refine fun s t => ⟨fun input h => ⟨?_, fun hs => ?_⟩, fun token h => ⟨?_, fun hs => ?_⟩⟩
  · obtain ⟨res, rfl, -⟩ := exec_next h
    rfl
  · obtain ⟨htoken, hlegal, -⟩ := exec_encode_success h hs
    refine ⟨_, htoken, tokenOf_frameFor_ne_nil hlegal, canonical_b64Encode _, ?_⟩
    rw [tokenOf, tokenLengthIsFourPerThreeBytes, Nat.mul_mod_right]
  · obtain ⟨res, rfl, -⟩ := exec_next h
    rfl
  · obtain ⟨_, hunits, rfl⟩ := units_ok_of_status_zero h hs
    obtain ⟨w, hwork, rfl⟩ := unit_map_ok hunits
    exact ⟨w.out, rfl, fun n hn => Nat.le_of_lt_succ (decodeWork_lt hwork n hn)⟩

/-- Settles O52: ENCODE answers the token of the example's grouped frame, and that decodes to the values grouped. -/
theorem groupedTokenLosesTheOrder : Obligations.GroupedTokenLosesTheOrder := by
  have hall : AllLegal [2, 1, 2, 1, 2, 1, 2, 1, 2] := by unfold AllLegal; decide
  have htoken : tokenOf (frameFor [2, 1, 2, 1, 2, 1, 2, 1, 2]) = [0x67, 0x49, 0x42, 0x51, 0x43, 0x41, 0x67, 0x3D] := by
    decide +kernel
  have hvalues : decodedOf [2, 1, 2, 1, 2, 1, 2, 1, 2] = [2, 2, 2, 2, 2, 1, 1, 1, 1] := by decide
  have hdecode := exec_decode_tokenOf_frameFor ((allLegal_iff_legalValue _).mp hall) (s := State.reset) nofun
  rw [htoken, hvalues] at hdecode
  have hencode := encodeAnswersTheTokenOfItsFrame State.reset [2, 1, 2, 1, 2, 1, 2, 1, 2] nofun hall (.inr (by decide))
  rw [htoken] at hencode
  exact ⟨hencode, hdecode⟩

end Sys2Proof.Machine

/-! SUPPORT. What `RES` holds when a command ends: a result of the command's own form (44_commands.md R162), or an error's row of
60_exceptions.md R181's table. -/

namespace Sys2Proof.Machine

open Sys2Proof

/-- R181's table: the command that raises the error, and what the error's info can hold (R182 to R187). -/
def Err.RaisedBy (op : BitVec 1) : Err → Prop
  | .domainRange v => op = 0 ∧ legalValue v = false
  | .countOverflow v count => op = 0 ∧ legalValue v = true ∧ 1024 ≤ count
  | .format => op = 1
  | .truncatedStream bits cursor => op = 1 ∧ bits % 8 = 0 ∧ cursor ≤ bits
  | .capacity _ => True

/-- An error raised by its command makes a well-formed `RES` (R181, R186(c)). -/
theorem Res.failure_wf {op : BitVec 1} {e : Err} (h : e.RaisedBy op) : (Res.failure op e).wf = true := by
  cases e with
  | domainRange v =>
    obtain ⟨rfl, hv⟩ := h
    simp [Res.wf, Res.consistent, Err.status, Err.info, emptyOutput, hv]
  | countOverflow v count =>
    obtain ⟨rfl, hv, hcount⟩ := h
    simp [Res.wf, Res.consistent, Err.status, Err.info, emptyOutput, hv, Config.countBits, hcount]
  | format =>
    obtain rfl := h
    rfl
  | truncatedStream bits cursor =>
    obtain ⟨rfl, hbits, hcursor⟩ := h
    simp [Res.wf, Res.consistent, Err.status, Err.info, emptyOutput, Config.byteBits, hbits, hcursor]
  | capacity limit =>
    obtain rfl | rfl := (by decide : ∀ op : BitVec 1, op = 0 ∨ op = 1) op
    · rfl
    · rfl

/-- ENCODE's success is a non-empty canonical token (R67, R123). -/
theorem Res.success_encode_wf {token : List Byte} (hne : token ≠ []) (hc : canonical token = true) :
    (Res.success 0 (.octets token)).wf = true := by
  have hform : tokenForm token = true := by simp [tokenForm, hne, hc]
  exact hform

/-- DECODE's success is a sequence of 9-bit naturals (R162). -/
theorem Res.success_decode_wf {out : List Nat} (h : ∀ n ∈ out, n < 512) :
    (Res.success 1 (.naturals out)).wf = true := by
  have hform : out.all (fun n => decide (n < 512)) = true := by simpa using h
  exact hform

/-- The status of a consistent `RES` is not one of the reserved codes (R181). -/
theorem Res.status_le_of_consistent {r : Res} (h : r.consistent = true) : r.status.toNat ≤ 5 := by
  cases hcode : Status.ofCode r.status with
  | none => simp [Res.consistent, hcode] at h
  | some c =>
    have hsome := Status.ofCode_isSome r.status
    rw [hcode] at hsome
    exact of_decide_eq_true hsome.symm

/-! SUPPORT. Both commands end, in every state and on every operand, with a well-formed `RES`. -/

/-- An ENCODE one of whose units raises ends with that error (R186). -/
theorem exec_encode_of_raised {s : State} {input : List Int} {e : Err}
    (h : encodeWork s.cfg input = .error (.raised e)) : exec (.encode input) s = .next (s.raiseError 0 e) := by
  simp only [exec, execEncode, h]
  rfl

/-- The first entry of a sequence's table with a count of 1024 or more is that of the first such value (R183). -/
theorem find?_tableOf (input : List Int) :
    (tableOf input).find? (fun e => decide (1024 ≤ e.count)) =
      (input.eraseDups.find? fun v => decide (1024 ≤ input.count v)).map fun v => ⟨v, input.count v⟩ :=
  List.find?_map

/-- The entry whose count is reported has a value of the input, and a count that does not fit its field (R183). -/
theorem countOverflow_raisedBy {input : List Int} (hlegal : ∀ x ∈ input, legalValue x = true) {e : Entry}
    (hfind : (tableOf input).find? (fun e => decide (1024 ≤ e.count)) = some e) :
    (Err.countOverflow e.value e.count).RaisedBy 0 :=
  ⟨rfl, tableOf_legal input hlegal e (List.mem_of_find?_eq_some hfind), by simpa using List.find?_some hfind⟩

theorem exec_encode_ends (input : List Int) (s : State) :
    ∃ r : Res, exec (.encode input) s = .next (s.endWith r) ∧ r.wf = true := by
  rcases encodeWork_cases s.cfg input with
    ⟨m, -, -, he⟩ | ⟨-, ⟨_, x, _, -, -, hx, he⟩ | ⟨hlegal, ⟨e, -, -, hfind, he⟩ | ⟨-, hok⟩⟩⟩
  · exact ⟨_, exec_encode_of_raised he, Res.failure_wf trivial⟩
  · exact ⟨_, exec_encode_of_raised he, Res.failure_wf ⟨rfl, hx⟩⟩
  · exact ⟨_, exec_encode_of_raised he, Res.failure_wf (countOverflow_raisedBy hlegal hfind)⟩
  · have hunits : (encodeWork s.cfg input).map (fun w => Output.octets w.t) = .ok (.octets (tokenOf (frameFor input))) := by
      rw [hok, ← encodedWork_t hlegal]
      rfl
    exact ⟨_, exec_encode_of_work hunits,
      Res.success_encode_wf (tokenOf_frameFor_ne_nil hlegal) (canonical_b64Encode _)⟩

/-- A frame of whole bytes, whose fields are of 9 bits, ends with a well-formed `RES`: an error's remainder starts inside the
stream (R143 to R146, R185). -/
theorem endCommand_finishFrame_ends (s : State) {len : Nat} (tail : BitStream) (mode : Mode) {out : List Nat}
    (hwhole : len % 8 = 0) (hout : ∀ n ∈ out, n < 512) :
    ∃ r : Res, s.endCommand 1 (finishFrame s.cfg len tail mode out) = .next (s.endWith r) ∧ r.wf = true := by
  rcases finishFrame_cases s.cfg len tail mode out with ⟨r, hfinish, htrailing⟩ | ⟨hfinish, -⟩
  · rw [hfinish]
    exact ⟨_, rfl, Res.success_decode_wf fun n hn => trailing_lt htrailing hout n (trimZeros_mem _ _ hn)⟩
  · rw [hfinish]
    exact ⟨_, rfl, Res.failure_wf ⟨rfl, hwhole, Nat.sub_le _ _⟩⟩

theorem exec_groupedFrame_ends {pairs : List (ValueField × CountField)} {tail : BitStream}
    (hwf : (Instr.groupedFrame pairs tail).wf = true) (s : State) :
    ∃ r : Res, exec (.groupedFrame pairs tail) s = .next (s.endWith r) ∧ r.wf = true := by
  obtain ⟨-, hwhole⟩ := (wf_grouped_iff pairs tail).mp hwf
  refine endCommand_finishFrame_ends s tail .grouped hwhole fun n hn => ?_
  obtain ⟨p, -, hp⟩ := List.mem_flatMap.mp hn
  rw [List.eq_of_mem_replicate hp]
  exact p.1.isLt

theorem exec_rawFrame_ends {values : List ValueField} {tail : BitStream}
    (hwf : (Instr.rawFrame values tail).wf = true) (s : State) :
    ∃ r : Res, exec (.rawFrame values tail) s = .next (s.endWith r) ∧ r.wf = true := by
  obtain ⟨-, hwhole⟩ := (wf_raw_iff values tail).mp hwf
  refine endCommand_finishFrame_ends s tail .raw hwhole fun n hn => ?_
  obtain ⟨v, -, rfl⟩ := List.mem_map.mp hn
  exact v.isLt

/-- The empty token has no mode flag, and ends by policy (R142, R144). -/
theorem exec_decode_nil_ends (s : State) :
    ∃ r : Res, exec (.decode []) s = .next (s.endWith r) ∧ r.wf = true := by
  obtain ⟨hstrict, hreference⟩ := emptyTokenByPolicy s
  cases hpolicy : s.cfg.decodePolicy with
  | strict => exact ⟨_, hstrict hpolicy, rfl⟩
  | reference => exact ⟨_, hreference hpolicy, rfl⟩

/-- A DECODE whose token has a payload ends as the payload's frame does, or as the empty token's (R70). -/
theorem exec_decode_payload_ends {s : State} {token p : List Byte} (hf : Fits s.cfg.maxTokenLen token.length)
    (hp : b64Decode s.cfg token = .ok p) :
    ∃ r : Res, exec (.decode token) s = .next (s.endWith r) ∧ r.wf = true := by
  rcases eq_or_ne p [] with rfl | hne
  · rw [exec_decode_of_payload hf hp, bitUnpack_nil, ← exec_decode_nil]
    exact exec_decode_nil_ends s
  · obtain ⟨i, hi, hwf, hencode⟩ := everyNonEmptyPayloadIsOneFrame p hne
    rw [exec_decode_of_frame hf hp hwf hencode]
    cases i with
    | encode values => cases hencode
    | decode token => cases hencode
    | groupedFrame pairs tail => exact exec_groupedFrame_ends hwf s
    | rawFrame values tail => exact exec_rawFrame_ends hwf s

theorem exec_decode_ends (token : List Byte) (s : State) :
    ∃ r : Res, exec (.decode token) s = .next (s.endWith r) ∧ r.wf = true := by
  rcases fits_or_exceeded s.cfg.maxTokenLen token.length with hf | ⟨m, hm, hlt⟩
  · rcases b64Decode_cases s.cfg token with ⟨-, hp⟩ | ⟨-, -, he⟩ | ⟨-, -, hp⟩
    · exact exec_decode_payload_ends hf hp
    · exact ⟨_, exec_decode_of_b64Decode_error hf he, Res.failure_wf rfl⟩
    · exact exec_decode_payload_ends hf hp
  · exact ⟨_, exec_decode_exceeded hm hlt, Res.failure_wf trivial⟩

/-- What a command decodes to ends: it is an ENCODE or a DECODE (R60, R206). -/
theorem exec_ends_of_decodeCommand {c : Command} {i : Instr} (h : decodeCommand c = .ok i) (s : State) :
    ∃ r : Res, exec i s = .next (s.endWith r) ∧ r.wf = true := by
  unfold decodeCommand at h
  split at h
  · cases h; exact exec_encode_ends _ s
  · cases h; exact exec_decode_ends _ s
  · cases h

/-! SUPPORT. The invariant `State.wf`, part by part, and what each operation on the state does to it. -/

theorem State.wf_iff (s : State) :
    s.wf = true ↔ s.res.wf = true ∧ (∀ r ∈ s.lastRead, r.valid = true ∧ r.wf = true) ∧
      (∀ c ∈ s.inProgress, c.wf = true) ∧ ∀ m ∈ s.host, m.wf = true := by
  simp [State.wf, and_assoc, Option.all_eq_true]

/-- Taking the host's next move off the list: the move and what is left are well formed. -/
theorem State.wf_of_move {s : State} {m : HostMove} {rest : List HostMove} (hs : s.wf = true) (hh : s.host = m :: rest) :
    m.wf = true ∧ State.wf { s with host := rest } = true := by
  obtain ⟨hres, hread, hprogress, hhost⟩ := s.wf_iff.mp hs
  rw [hh, List.forall_mem_cons] at hhost
  exact ⟨hhost.1, (State.wf_iff _).mpr ⟨hres, hread, hprogress, hhost.2⟩⟩

theorem State.endWith_wf {s : State} {r : Res} (hs : s.wf = true) (hr : r.wf = true) : (s.endWith r).wf = true := by
  obtain ⟨-, hread, -, hhost⟩ := s.wf_iff.mp hs
  exact (State.wf_iff _).mpr ⟨hr, hread, nofun, hhost⟩

theorem State.accept_wf {s t : State} {c : Command} (hs : s.wf = true) (hc : c.wf = true) (h : s.accept c = .next t) :
    t.wf = true := by
  obtain ⟨hres, hread, -, hhost⟩ := s.wf_iff.mp hs
  obtain ⟨-, rfl⟩ := State.accept_next h
  exact (State.wf_iff _).mpr ⟨hres, hread, by rintro _ ⟨⟩; exact hc, hhost⟩

/-- The host gets back a valid `RES`, which the block holds well formed, or nothing (R22). -/
theorem State.readRes_wf {s t : State} (hs : s.wf = true) (h : s.readRes = .next t) : t.wf = true := by
  obtain ⟨hres, -, hprogress, hhost⟩ := s.wf_iff.mp hs
  rcases State.readRes_next h with ⟨hvalid, rfl⟩ | ⟨-, rfl⟩
  · exact (State.wf_iff _).mpr ⟨hres, by rintro _ ⟨⟩; exact ⟨hvalid, hres⟩, hprogress, hhost⟩
  · exact (State.wf_iff _).mpr ⟨hres, nofun, hprogress, hhost⟩

theorem State.assertReset_wf {s : State} (hs : s.wf = true) : s.assertReset.wf = true :=
  State.endWith_wf hs (Res.wf_of_invalid Res.reset_valid)

/-- An idle block has nothing to work on (R197). -/
theorem State.work_of_idle {s : State} (h : s.inProgress = none) : s.work = .next s := by
  simp only [State.work, h]

/-- The block's work on a well-formed state goes on, to a well-formed state (R203(b), R206). -/
theorem State.work_ends {s : State} (hs : s.wf = true) : ∃ t, s.work = .next t ∧ t.wf = true := by
  obtain ⟨-, -, hprogress, -⟩ := s.wf_iff.mp hs
  cases hc : s.inProgress with
  | none => exact ⟨s, State.work_of_idle hc, hs⟩
  | some c =>
    obtain ⟨i, hi⟩ := (everyWellFormedCommandDecodes c).mp (hprogress c hc)
    obtain ⟨r, hexec, hr⟩ := exec_ends_of_decodeCommand hi s
    have hwork : s.work = exec i s := by simp only [State.work, hc, hi]
    exact ⟨_, hwork.trans hexec, State.endWith_wf hs hr⟩

theorem State.work_wf {s t : State} (hs : s.wf = true) (h : s.work = .next t) : t.wf = true := by
  obtain ⟨u, hwork, hu⟩ := State.work_ends hs
  cases h.symm.trans hwork
  exact hu

theorem State.hostMove_wf {s t : State} {m : HostMove} (hs : s.wf = true) (hm : m.wf = true)
    (h : s.hostMove m = .next t) : t.wf = true := by
  cases m with
  | issue c => exact State.accept_wf hs hm h
  | readRes => exact State.readRes_wf hs h
  | reset => cases h; exact State.assertReset_wf hs
  | wait => exact State.work_wf hs h

/-- The host's read of a well-formed `RES` goes on: no command wrote a reserved status (R181). -/
theorem State.readRes_of_wf {s : State} (hs : s.wf = true) : ∃ t, s.readRes = .next t := by
  obtain ⟨hres, -⟩ := s.wf_iff.mp hs
  cases hvalid : s.res.valid with
  | false => exact ⟨_, State.readRes_of_invalid hvalid⟩
  | true =>
    have hconsistent : s.res.consistent = true := by simpa [Res.wf, hvalid] using hres
    exact ⟨_, State.readRes_of_valid hvalid (Res.status_le_of_consistent hconsistent)⟩

/-- An idle block takes the command (R203(b)). -/
theorem State.accept_of_idle {s : State} (c : Command) (h : s.inProgress = none) :
    s.accept c = .next { s with inProgress := some c } := by
  simp only [State.accept, h]

/-- A host that keeps the handshake issues a command to an idle block only (R203(c)). -/
theorem inProgress_of_issue {s : State} {c : Command} {rest : List HostMove} (hkeeps : s.hostBreaksHandshake = false)
    (hh : s.host = .issue c :: rest) : s.inProgress = none := by
  simpa [State.hostBreaksHandshake, hh] using hkeeps

/-! The statements of 60_exceptions.md. -/

/-- Settles O58: taking the move off the list keeps the invariant, and so does each move; the command in progress ends with
a well-formed `RES`. -/
theorem stepKeepsTheStateWellFormed : Obligations.StepKeepsTheStateWellFormed := by
  intro s t hs h
  cases hh : s.host with
  | nil => exact State.work_wf hs ((step_of_no_move hh).symm.trans h)
  | cons m rest =>
    obtain ⟨hm, hrest⟩ := State.wf_of_move hs hh
    exact State.hostMove_wf hrest hm ((step_of_move hh).symm.trans h)

/-- Settles O60: a command is issued to an idle block, `RES` holds no reserved status, and the command in progress decodes
and ends. -/
theorem wellFormedStateStepsOn : Obligations.WellFormedStateStepsOn := by
  intro s hs hkeeps
  cases hh : s.host with
  | nil =>
    obtain ⟨t, hwork, -⟩ := State.work_ends hs
    exact ⟨t, (step_of_no_move hh).trans hwork⟩
  | cons m rest =>
    obtain ⟨-, hrest⟩ := State.wf_of_move hs hh
    rw [step_of_move hh]
    cases m with
    | issue c =>
      have hidle : s.inProgress = none := inProgress_of_issue hkeeps hh
      exact ⟨_, State.accept_of_idle c hidle⟩
    | readRes => exact State.readRes_of_wf hrest
    | reset => exact ⟨_, rfl⟩
    | wait => exact (State.work_ends hrest).imp fun _ => And.left

/-- Settles O34: the Frequency Counter is the first unit to raise, at the first illegal element. -/
theorem encodeRaisesDomainRangeError : Obligations.EncodeRaisesDomainRangeError := by
  intro s before after x hf hbefore hx
  have hcount := freqCountReportsTheFirstIllegalElement.2 before after x hbefore hx
  refine exec_encode_of_raised (e := .domainRange x) ?_
  simp only [encodeWork, checkCapacity_fits hf, hcount, bind, Except.bind]

/-- Settles O35: a count of 1024 forces the grouped mode, where the Field Encoder checks the counts in table order. -/
theorem encodeRaisesCountOverflowError : Obligations.EncodeRaisesCountOverflowError := by
  intro s input v hf hall hreject hfind
  have hlegal := (allLegal_iff_legalValue input).mp hall
  have hentry : (tableOf input).find? (fun e => decide (1024 ≤ e.count)) = some ⟨v, input.count v⟩ := by
    rw [find?_tableOf, hfind, Option.map_some]
  have hmem := List.mem_of_find?_eq_some hentry
  have hlarge : 1024 ≤ input.count v := by simpa using List.find?_some hentry
  rcases encodeWork_cases s.cfg input with
    ⟨m, hm, hlt, -⟩ | ⟨-, ⟨_, x, _, rfl, -, hx, -⟩ | ⟨-, ⟨e, -, -, hfirst, he⟩ | ⟨hpass, -⟩⟩⟩
  · exact absurd (hf m hm) (Nat.not_le_of_lt hlt)
  · exact absurd (hlegal x (by simp)) (by simp [hx])
  · cases hentry.symm.trans hfirst
    exact exec_encode_of_raised he
  · rcases hpass with hraw | hwrap | hsmall
    · obtain ⟨-, -, hthresholds⟩ := modeThresholds
      obtain ⟨-, -, -, hforces⟩ := hthresholds input _ (freqCount_legal input hlegal)
      cases hraw.symm.trans (hforces _ hmem hlarge)
    · cases hreject.symm.trans hwrap
    · exact absurd (hsmall _ hmem) (Nat.not_le_of_lt hlarge)

/-- Settles O6: the host's read of a valid `RES` finds a name for the codes 0 to 5 only. -/
theorem reservedStatusCodeFaults : Obligations.ReservedStatusCodeFaults := by
  intro s rest hh hvalid hreserved
  rw [step_of_move hh]
  exact State.readRes_of_reserved hvalid hreserved

/-- Settles O7: a waiting host leaves the step to the block's work, of which an idle block has none. -/
theorem idlenessChangesNothing : Obligations.IdlenessChangesNothing := by
  intro s hidle
  refine ⟨fun hh => ?_, fun rest hh => ?_⟩
  · rw [step_of_no_move hh]
    exact State.work_of_idle hidle
  · rw [step_of_move hh]
    exact State.work_of_idle hidle

/-- Settles O36: either command checks its operand's length before it runs a unit. -/
theorem overlongOperandRaisesCapacityError : Obligations.OverlongOperandRaisesCapacityError := by
  refine ⟨fun s input m hm hlt => exec_encode_of_raised (e := .capacity m) ?_,
    fun s token m hm hlt => exec_decode_exceeded hm hlt⟩
  simp only [encodeWork, hm, checkCapacity_exceeded hlt, bind, Except.bind]

end Sys2Proof.Machine

/-! SUPPORT. What the handshake answers on a busy block and on a command in progress, and the end of every instruction
(70_reset_and_hazards.md R203, R206). -/

namespace Sys2Proof.Machine

open Sys2Proof

/-- A busy block takes no command (R203(c)). -/
theorem State.accept_of_busy {s : State} {d : Command} (c : Command) (h : s.inProgress = some d) :
    s.accept c = .refused .commandWhileBusy := by
  simp only [State.accept, h]

/-- The block works on the command in progress by running the instruction it decodes to (R203(b)). -/
theorem State.work_of_inProgress {s : State} {c : Command} {i : Instr} (hc : s.inProgress = some c)
    (hi : decodeCommand c = .ok i) : s.work = exec i s := by
  simp only [State.work, hc, hi]

/-- A command is its own: what it decodes to is run by it and by no other (R60). -/
theorem commandFor_of_decodeCommand {c : Command} {i : Instr} (h : decodeCommand c = .ok i) : commandFor i = c := by
  obtain ⟨op, operand⟩ := c
  obtain rfl | rfl := (by decide : ∀ op : BitVec 1, op = 0 ∨ op = 1) op
  · cases operand with
    | ints values => cases h; rfl
    | octets token => cases h
  · cases operand with
    | ints values => cases h
    | octets token => cases h; rfl

/-- TRAILING and the trim raise an error or answer a sequence, and never fault (R144 to R146). -/
theorem endCommand_finishFrame_next (s : State) (len : Nat) (tail : BitStream) (mode : Mode) (out : List Nat) :
    ∃ t, s.endCommand 1 (finishFrame s.cfg len tail mode out) = .next t := by
  rcases finishFrame_cases s.cfg len tail mode out with ⟨r, hfinish, -⟩ | ⟨hfinish, -⟩
  · exact ⟨_, congrArg (s.endCommand 1) hfinish⟩
  · exact ⟨_, congrArg (s.endCommand 1) hfinish⟩

/-- Every instruction goes on, a frame that is not well formed too (R206). -/
theorem exec_exists_next (i : Instr) (s : State) : ∃ t, exec i s = .next t := by
  cases i with
  | encode values =>
    obtain ⟨r, hexec, -⟩ := exec_encode_ends values s
    exact ⟨_, hexec⟩
  | decode token =>
    obtain ⟨r, hexec, -⟩ := exec_decode_ends token s
    exact ⟨_, hexec⟩
  | groupedFrame pairs tail => exact endCommand_finishFrame_next s _ tail .grouped _
  | rawFrame values tail => exact endCommand_finishFrame_next s _ tail .raw _

/-! SUPPORT. How long a grouped DECODE's answer can be: the payload's first bit fixes the mode of its frame, its length the
number of pairs, and a count field holds at most 1023 (R63, R143). -/

/-- The first bit of an unpacked payload is bit 7 of its first byte (R41, R62). -/
theorem bitUnpack_head? (p : List Byte) : (bitUnpack p).head? = p.head?.map fun b => b.toNat.testBit 7 := by
  rw [List.head?_eq_getElem?, getElem?_bitUnpack, List.head?_eq_getElem?]

/-- A payload whose mode flag is 1 is a grouped frame's, and its length fixes the number of pairs (R62, R63). -/
theorem groupedFrame_of_flag {p : List Byte} (hflag : p.head?.map (fun b => b.toNat.testBit 7) = some true) :
    ∃ pairs tail, (Instr.groupedFrame pairs tail).wf = true ∧ encode (.groupedFrame pairs tail) = .payload p ∧
      pairs.length = (8 * p.length - 1) / 19 := by
  have hne : p ≠ [] := by rintro rfl; cases hflag
  rw [← bitUnpack_head?] at hflag
  obtain ⟨i, -, hwf, hencode⟩ := everyNonEmptyPayloadIsOneFrame p hne
  have hpayload : payloadOf (encode i) = p := congrArg payloadOf hencode
  cases i with
  | encode values => cases hencode
  | decode token => cases hencode
  | rawFrame values tail =>
    rw [← hpayload, bitUnpack_payloadOf_raw hwf, frameBits_raw] at hflag
    cases hflag
  | groupedFrame pairs tail =>
    obtain ⟨htail, -⟩ := (wf_grouped_iff pairs tail).mp hwf
    have hlen := congrArg List.length (bitUnpack_payloadOf_grouped hwf)
    rw [hpayload, frameBits_grouped] at hlen
    simp only [bitUnpack_length, List.length_cons, List.length_append, pairsBits_length] at hlen
    exact ⟨pairs, tail, hwf, hencode, by omega⟩

/-- A pair gives at most 1023 elements: its count is a 10-bit field (R63, R143). -/
theorem pairsValues_length_le (pairs : List (ValueField × CountField)) :
    (pairs.flatMap fun p => List.replicate p.2.toNat p.1.toNat).length ≤ 1023 * pairs.length := by
  induction pairs with
  | nil => exact Nat.zero_le _
  | cons p pairs ih =>
    have hcount : p.2.toNat < 1024 := p.2.isLt
    simp only [List.flatMap_cons, List.length_append, List.length_replicate, List.length_cons]
    omega

/-- A grouped frame's remainder adds nothing to its values (R144, R145). -/
theorem trailing_grouped_ok {cfg : Config.Cfg} {len pos : Nat} {tail : BitStream} {out r : List Nat}
    (h : trailing cfg len pos tail .grouped out = .ok r) : r = out := by
  rcases trailing_ok h with rfl | rfl
  · rfl
  · exact List.append_nil out

/-- What a grouped frame leaves in `RES.out`, an error's empty sequence included, has at most 1023 elements a pair. -/
theorem exec_groupedFrame_length_le {pairs : List (ValueField × CountField)} {tail : BitStream} {s t : State}
    {out : List Nat} (h : exec (.groupedFrame pairs tail) s = .next t) (hout : t.res.out = .naturals out) :
    out.length ≤ 1023 * pairs.length := by
  have hend := (exec_eq_endCommand (.groupedFrame pairs tail) s).symm.trans h
  rcases finishFrame_cases s.cfg (groupedBits pairs tail) tail .grouped
    (pairs.flatMap fun p => List.replicate p.2.toNat p.1.toNat) with ⟨r, hfinish, htrailing⟩ | ⟨hfinish, -⟩
  · cases hend.symm.trans (congrArg (s.endCommand 1) hfinish)
    obtain rfl := Output.naturals.inj hout
    rw [trailing_grouped_ok htrailing]
    exact (trimZeros_length_le _).trans (pairsValues_length_le pairs)
  · cases hend.symm.trans (congrArg (s.endCommand 1) hfinish)
    obtain rfl := Output.naturals.inj hout
    exact Nat.zero_le _

/-! The statements of 70_reset_and_hazards.md. -/

/-- Settles O53: every instruction goes on, and what goes on has ended its command. -/
theorem everyCommandEnds : Obligations.EveryCommandEnds := by
  intro i s
  obtain ⟨t, hexec⟩ := exec_exists_next i s
  obtain ⟨-, -, -, hidle, hvalid, -⟩ := commandChangesNothingButRes i s t hexec
  exact ⟨t, hexec, hvalid, hidle⟩

/-- Settles O48: within capacity DECODE runs the grouped frame in the payload; over it, the answer is empty. -/
theorem groupedOutputLengthBound : Obligations.GroupedOutputLengthBound := by
  intro s t token out hc hflag h hout
  obtain ⟨pairs, tail, hwf, hencode, hlen⟩ := groupedFrame_of_flag hflag
  rw [← hlen]
  rcases fits_or_exceeded s.cfg.maxTokenLen token.length with hf | ⟨m, hm, hlt⟩
  · rw [exec_decode_of_frame hf (if_pos hc) hwf hencode] at h
    exact exec_groupedFrame_length_le h hout
  · cases h.symm.trans (exec_decode_exceeded hm hlt)
    obtain rfl := Output.naturals.inj hout
    exact Nat.zero_le _

/-- Settles O1: each field by its own lemma; an idle block takes any command. -/
theorem resetLeavesResInvalidAndIdle : Obligations.ResetLeavesResInvalidAndIdle := by
  intro cfg
  exact ⟨rfl, Res.reset_valid, rfl, fun c => State.accept_of_idle c rfl,
    fun s => ⟨s.assertReset_cfg, Res.reset_valid, s.assertReset_inProgress⟩⟩

/-- Settles O2: the host's move is the reset, whatever the block was doing. -/
theorem resetAbandonsTheCommandInProgress : Obligations.ResetAbandonsTheCommandInProgress := by
  intro s rest hh
  exact ⟨State.assertReset { s with host := rest }, step_of_move hh, Res.reset_valid, State.assertReset_inProgress _⟩

/-- Settles O3: the step takes the move off the list, and then the idle block accepts. -/
theorem idleBlockCapturesTheCommand : Obligations.IdleBlockCapturesTheCommand := by
  intro s c rest hh hidle
  rw [step_of_move hh]
  exact State.accept_of_idle c hidle

/-- Settles O4: taking the move off the list leaves the block busy. -/
theorem busyBlockAcceptsNoCommand : Obligations.BusyBlockAcceptsNoCommand := by
  intro s c d rest hh hbusy
  rw [step_of_move hh]
  exact State.accept_of_busy c hbusy

/-- Settles O8: a waiting host leaves the step to the block's work on the command in progress. -/
theorem stepRunsTheDecodedInstruction : Obligations.StepRunsTheDecodedInstruction := by
  intro s c i hc hi
  refine ⟨fun hh => step_of_inProgress hh hc hi, fun rest hh => ?_⟩
  rw [step_of_move hh]
  exact State.work_of_inProgress hc hi

/-- Settles O9: the first step is O3's and the second O8's; the instruction ends by O53, in the frame of O54. -/
theorem issuedCommandRunsToCompletion : Obligations.IssuedCommandRunsToCompletion := by
  intro s c rest hh hidle hwf
  obtain ⟨i, hi⟩ := (everyWellFormedCommandDecodes c).mp hwf
  obtain ⟨t, hexec⟩ := exec_exists_next i { s with host := rest, inProgress := some c }
  obtain ⟨hcfg, hhost, hread, hend, hvalid, hop⟩ := commandChangesNothingButRes i _ t hexec
  rw [commandFor_of_decodeCommand hi] at hop
  obtain ⟨-, hwaiting⟩ :=
    stepRunsTheDecodedInstruction { s with host := .wait :: rest, inProgress := some c } c i rfl hi
  exact ⟨_, t, idleBlockCapturesTheCommand s c _ hh hidle, rfl, rfl, (hwaiting rest rfl).trans hexec, hend, hvalid, hop,
    hcfg, hhost, hread⟩

end Sys2Proof.Machine
